-- ==== Sys2Proof/Word.lean ====
section
/-! DEFINITION. The machine word: XLEN = 32 bits, read as a two's-complement signed integer (R6, R8; log 1). -/
namespace Sys2Proof

/-- One word of a register, of RAM, of the stack or of the program image (R8): 32 bits, whose signed
reading is `BitVec.toInt`. -/
abbrev Word := BitVec 32

end Sys2Proof
end

