-- ==== Sys2Proof/Syntax.lean ====
section
/-! DEFINITION. The instructions: one constructor per row of spec/opcode_table.json (R55, R57), each with its
operand words in ROM order (R51). Operand words stay raw words because the spec reads them so: a destination id is
range-checked when the instruction executes (R66), a source id defaults (R64), and any nonzero flag is set (R52).
Ignored words are no part of an instruction (R56; log 13). -/
namespace Sys2Proof

inductive Instr where
  /-- 0x00, format N (R90). -/
  | nop
  /-- 0x01, format RVF: `x[rd] <- Resolve(val, flag)` (R71). -/
  | mov (rd val flag : Word)
  /-- 0x02, format RVF (R72). -/
  | add (rd val flag : Word)
  /-- 0x03, format RVF (R73). -/
  | sub (rd val flag : Word)
  /-- 0x04, format RVF (R74). -/
  | mul (rd val flag : Word)
  /-- 0x05, format RVF (R75). -/
  | div (rd val flag : Word)
  /-- 0x06, format RVF (R76). -/
  | xor (rd val flag : Word)
  /-- 0x07, format RVF (R77). -/
  | or (rd val flag : Word)
  /-- 0x08, format RVF (R78). -/
  | and (rd val flag : Word)
  /-- 0x09, format N (R91). -/
  | hlt
  /-- 0x0A, format VF (R82). -/
  | push (val flag : Word)
  /-- 0x0B, format R (R83). -/
  | pop (rd : Word)
  /-- 0x0C, format AVF (R86). -/
  | sto (addr val flag : Word)
  /-- 0x0D, format AR: the address first, the destination second (R87). -/
  | get (addr rd : Word)
  /-- 0xFF, format N (R92). -/
  | end_
  /-- Any other opcode word, kept as `opcode` (R57, R93). -/
  | undef (opcode : Word)
  deriving DecidableEq, Repr

/-- The opcode word `w0` of an instruction (R55). -/
def Instr.opcode : Instr → Word
  | .nop => 0#32
  | .mov _ _ _ => 1#32
  | .add _ _ _ => 2#32
  | .sub _ _ _ => 3#32
  | .mul _ _ _ => 4#32
  | .div _ _ _ => 5#32
  | .xor _ _ _ => 6#32
  | .or _ _ _ => 7#32
  | .and _ _ _ => 8#32
  | .hlt => 9#32
  | .push _ _ => 10#32
  | .pop _ => 11#32
  | .sto _ _ _ => 12#32
  | .get _ _ => 13#32
  | .end_ => 255#32
  | .undef op => op

end Sys2Proof
end

