-- ==== Sys2Proof/WellFormed.lean ====
section
/-! DEFINITION. When a term of `Instr` stands for an instruction of the RGC ISA. Every operand word is legal in every
position (R58: no encoding is unpredictable), so the one check is that UNDEF does not name a defined opcode (R57). -/
namespace Sys2Proof

/-- The opcode words of the 15 defined instructions (R55). -/
def definedOpcodes : List Word :=
  [0#32, 1#32, 2#32, 3#32, 4#32, 5#32, 6#32, 7#32, 8#32, 9#32, 10#32, 11#32, 12#32, 13#32, 255#32]

/-- R57: an undefined opcode is every value of `w0` other than the 15 of R55. -/
def Instr.wellFormed : Instr → Bool
  | .undef op => !definedOpcodes.contains op
  | .nop | .hlt | .end_ => true
  | .mov _ _ _ | .add _ _ _ | .sub _ _ _ | .mul _ _ _ | .div _ _ _ => true
  | .xor _ _ _ | .or _ _ _ | .and _ _ _ => true
  | .push _ _ | .pop _ | .sto _ _ _ | .get _ _ => true

end Sys2Proof
end

