-- ==== Sys2Proof/Decode.lean ====
section
/-! DEFINITION. The opcode decoder (R49 to R58, R98) and the encoder, both from the opcode map of R55 and the
operand formats of R51, and the host's view of the decoder. -/
namespace Sys2Proof

/-- Why a list of words holds no instruction. -/
inductive DecodeError where
  /-- Fewer than 4 words are left (R39, R49): the spec's "decode failure". In a run the fetch unit meets this case
  first and raises FETCH_PAST_END (R96). -/
  | truncated
  deriving DecidableEq, Repr

/-- The decoder of R98: a total function of the four words of an instruction that selects by exact equality of the
whole opcode word (R54) and never fails; every other opcode word is UNDEF (R57). Words a format ignores are
dropped (R56). -/
def decodeWords (w0 w1 w2 w3 : Word) : Instr :=
  if w0 = 0#32 then .nop
  else if w0 = 1#32 then .mov w1 w2 w3
  else if w0 = 2#32 then .add w1 w2 w3
  else if w0 = 3#32 then .sub w1 w2 w3
  else if w0 = 4#32 then .mul w1 w2 w3
  else if w0 = 5#32 then .div w1 w2 w3
  else if w0 = 6#32 then .xor w1 w2 w3
  else if w0 = 7#32 then .or w1 w2 w3
  else if w0 = 8#32 then .and w1 w2 w3
  else if w0 = 9#32 then .hlt
  else if w0 = 10#32 then .push w1 w2
  else if w0 = 11#32 then .pop w1
  else if w0 = 12#32 then .sto w1 w2 w3
  else if w0 = 13#32 then .get w1 w2
  else if w0 = 255#32 then .end_
  else .undef w0

/-- The first instruction of a list of ROM words, with the words after it; an instruction is exactly four words
(R49), and a shorter list is rejected by name (R39). -/
def decode : List Word → Except DecodeError (Instr × List Word)
  | w0 :: w1 :: w2 :: w3 :: rest => .ok (decodeWords w0 w1 w2 w3, rest)
  | _ => .error .truncated

/-- The four words of an instruction, an ignored word written 0 (R51, R56, R62). -/
def encode : Instr → List Word
  | .nop => [0#32, 0#32, 0#32, 0#32]
  | .mov rd val flag => [1#32, rd, val, flag]
  | .add rd val flag => [2#32, rd, val, flag]
  | .sub rd val flag => [3#32, rd, val, flag]
  | .mul rd val flag => [4#32, rd, val, flag]
  | .div rd val flag => [5#32, rd, val, flag]
  | .xor rd val flag => [6#32, rd, val, flag]
  | .or rd val flag => [7#32, rd, val, flag]
  | .and rd val flag => [8#32, rd, val, flag]
  | .hlt => [9#32, 0#32, 0#32, 0#32]
  | .push val flag => [10#32, val, flag, 0#32]
  | .pop rd => [11#32, rd, 0#32, 0#32]
  | .sto addr val flag => [12#32, addr, val, flag]
  | .get addr rd => [13#32, addr, rd, 0#32]
  | .end_ => [255#32, 0#32, 0#32, 0#32]
  | .undef op => [op, 0#32, 0#32, 0#32]

/-- Word number `k` of the bits `w`, where bit 0 of `w` is the least significant bit of the first word. -/
def tableWord (w k : Nat) : Word := BitVec.ofNat 32 (w / 2 ^ (32 * k))

/-- The four ROM words of an instruction whose low `nbits` bits are those of `w` and whose other bits are 0. -/
def tableWords (nbits w : Nat) : List Word :=
  [tableWord (w % 2 ^ nbits) 0, tableWord (w % 2 ^ nbits) 1, tableWord (w % 2 ^ nbits) 2, tableWord (w % 2 ^ nbits) 3]

/-- What the decoder reads from the instruction with bits `w`, numbered as spec/opcode_table.json numbers them. -/
def decodeTableWord (nbits w : Nat) : Option Instr :=
  match decode (tableWords nbits w) with
  | .ok (i, _) => some i
  | .error _ => none

end Sys2Proof
end

