-- ==== Sys2Proof/Config.lean ====
section
/-! DEFINITION. The spec's default sizes (R6) and the free values it leaves open (R22, R31, R32; log 4, log 5). -/
namespace Sys2Proof

/-- R6: RAM capacity in words, default. The capacity in force is the field `memCap` of the state (log 2). -/
def Config.defaultMemCap : Nat := 2048

/-- R6: stack capacity in words, default. The capacity in force is the field `stackCap` of the state (log 2). -/
def Config.defaultStackCap : Nat := 512

/-- `MEM_INIT` (R6, R31, R32, U1): the word a RAM address holds at the release of reset number `launch`, before
any STO. DESIGN CHOICE, safe (log 4): a free value under no law, so nothing can be proved of it. -/
opaque Config.memInit (launch address : Nat) : Word

/-- The word a stack slot holds at the release of reset number `launch`, before any PUSH (R22, U2).
DESIGN CHOICE, safe (log 5): a free value under no law; no slot below `sp` reads it in a reachable state. -/
opaque Config.stkInit (launch slot : Nat) : Word

end Sys2Proof
end

