-- ==== Sys2Proof/Machine/State.lean ====
section
/-! DEFINITION. The state of the core (R13), the parameters of its step (R6), the host's inputs (R108), and the state
right after reset (R32). Plain data only. -/
namespace Sys2Proof.Machine

/-- The names of the four general registers (R14). -/
inductive Reg where
  | x0 | x1 | x2 | x3
  deriving DecidableEq, Repr

/-- The register file: exactly four words, none hard-wired (R14). -/
structure Regs where
  x0 : Word
  x1 : Word
  x2 : Word
  x3 : Word
  deriving DecidableEq, Repr

/-- The run state (R25). -/
inductive RunState where
  | running | halted | terminated | cancelled | faulted
  deriving DecidableEq, Repr

/-- The fault cause (R26, R119). -/
inductive Cause where
  | none | imageLength | fetchPastEnd | regIndex | divZero | memBounds | stackOverflow | stackUnderflow
  deriving DecidableEq, Repr

/-- The two sticky warning bits (R27). -/
structure Warn where
  /-- Bit 0, UNK_OPCODE. -/
  unkOpcode : Bool
  /-- Bit 1, REG_DEFAULTED. -/
  regDefaulted : Bool
  deriving DecidableEq, Repr

/-- An array of words, by the words written into it since reset: (word address, word) pairs at strictly rising
addresses. An address that is not listed has not been written; it has no listed value, and what it holds is the free
value of `Config` (R22, R43). The unit is the word: there are no bytes (R35; log 11). -/
abbrev Memory := List (Nat × Word)

/-- One move of the host at a sampling instant between steps (R95, R108, R114; log 7, log 8). The host has no other
move: it writes no register, no pc, no sp, no RAM and no stack, and changes ROM only at a reset (R114, U13). -/
inductive HostMove where
  /-- Nothing is asserted. -/
  | idle
  /-- `cancel` is sampled asserted (R103). -/
  | cancel
  /-- `reset` is asserted: from here the core does nothing until the release (R108, R138). -/
  | holdReset
  /-- `reset` is released with `image` placed in ROM (R108, R138, R141); a release that follows no `holdReset` is a
  reset pulse between two steps. -/
  | releaseReset (image : List Word)
  deriving DecidableEq, Repr

/-- Everything the spec gives the machine. -/
structure State where
  /-- General registers x[0..3] (R14). -/
  x : Regs
  /-- Program counter: a word index into `rom` (R16, R17); in its PCW bits it is `State.pcBits` (R6; log 12). -/
  pc : Nat
  /-- Stack pointer: the number of occupied slots (R20); in its SPW bits it is `State.spBits` (R6; log 12). -/
  sp : Nat
  /-- Stack memory, the slots written since reset (R22). -/
  stk : Memory
  /-- RAM, the words written since reset (R23). -/
  mem : Memory
  /-- Run state (R25). -/
  run : RunState
  /-- Fault cause (R26). -/
  cause : Cause
  /-- Sticky warnings (R27). -/
  warn : Warn
  /-- The program image ROM; ROM_LEN is its length (R6, R33). A parameter of the step, not written by it (log 2). -/
  rom : List Word
  /-- MEM_CAP (R6), a parameter (log 2). -/
  memCap : Nat
  /-- STACK_CAP (R6), a parameter (log 2). -/
  stackCap : Nat
  /-- The level of the host's `reset` input (R108; log 8). -/
  inReset : Bool
  /-- The host's moves to come, one sampled before each step; an empty list is a host that does nothing (log 7). -/
  host : List HostMove
  /-- The model's own counter: how many times reset was released before this run. It picks the free contents of RAM
  and stack, which are unspecified afresh after every reset (R139; log 6). -/
  launchNo : Nat
  deriving DecidableEq, Repr

/-- Reasons for which a step could stop the model with a fault. There is none: each of the seven faults of R119 is a
NEXT state, with `run` FAULTED and its cause recorded (R126; log 10). Safe and exact. -/
inductive Fault where
  deriving DecidableEq, Repr

/-- Reasons for which the model gives an instruction no meaning. -/
inductive Refusal where
  /-- Raised by an arm of `exec` for an instruction that has no meaning yet, and by nothing else; safe. No arm of this
  model raises it. -/
  | notModelled (mnemonic : String)
  deriving DecidableEq, Repr

/-- What a step or an instruction answers. -/
abbrev Result := Host.Outcome State Fault Refusal

/-- The state at the release of reset (R32, R138), for the empty program image (ROM_LEN = 0, which is a multiple of 4)
and the default sizes (log 2, log 3). -/
def State.reset : State where
  x := ⟨0#32, 0#32, 0#32, 0#32⟩
  pc := 0
  sp := 0
  stk := []
  mem := []
  run := .running
  cause := .none
  warn := ⟨false, false⟩
  rom := []
  memCap := Config.defaultMemCap
  stackCap := Config.defaultStackCap
  inReset := false
  host := []
  launchNo := 0

end Sys2Proof.Machine
end

