-- ==== Sys2Proof/Machine/Flags.lean ====
section
/-! DEFINITION. The core has no flags or condition codes (R28); its only sticky bits are the two of `warn` (R27), and
this file holds how each is computed. -/
namespace Sys2Proof.Machine

/-- R27, R64: a completed instruction sets REG_DEFAULTED when its resolver read defaulted; a set bit stays set. -/
def Warn.noteDefaulted (w : Warn) (defaulted : Bool) : Warn :=
  { w with regDefaulted := w.regDefaulted || defaulted }

/-- R27, R93: a completed UNDEF sets UNK_OPCODE. -/
def Warn.noteUnknown (w : Warn) : Warn :=
  { w with unkOpcode := true }

/-- The two bits as the host reads them: bit 0 UNK_OPCODE, bit 1 REG_DEFAULTED (R27). -/
def Warn.bits (w : Warn) : BitVec 2 :=
  BitVec.ofBool w.regDefaulted ++ BitVec.ofBool w.unkOpcode

end Sys2Proof.Machine
end

