-- ==== Sys2Proof/Machine/Ops.lean ====
section
/-! DEFINITION. The named operations over the register file, RAM, the stack and the program image; completing an
instruction; taking a fault; sampling the host; reset. -/
namespace Sys2Proof.Machine

/-! ### Register file (R14) -/

/-- The index of a register in the source's numbering 0 to 3 (R14). -/
def Reg.index : Reg → Nat
  | .x0 => 0
  | .x1 => 1
  | .x2 => 2
  | .x3 => 3

def Regs.get (x : Regs) : Reg → Word
  | .x0 => x.x0
  | .x1 => x.x1
  | .x2 => x.x2
  | .x3 => x.x3

def Regs.set (x : Regs) (r : Reg) (v : Word) : Regs :=
  match r with
  | .x0 => { x with x0 := v }
  | .x1 => { x with x1 := v }
  | .x2 => { x with x2 := v }
  | .x3 => { x with x3 := v }

/-- `x[r]` (R9). -/
def State.reg (s : State) (r : Reg) : Word := s.x.get r

/-- `x[r] <- v` (R9). -/
def State.setReg (s : State) (r : Reg) (v : Word) : State := { s with x := s.x.set r v }

/-! ### Word arrays (RAM and the stack array) -/

/-- The word written at `a`, if any has been written since reset. -/
def Memory.read : Memory → Nat → Option Word
  | [], _ => none
  | c :: m, a => if c.1 = a then some c.2 else Memory.read m a

/-- The array after `v` is written at `a`; every other word is kept, and addresses stay strictly rising. -/
def Memory.write : Memory → Nat → Word → Memory
  | [], a, v => [(a, v)]
  | c :: m, a, v =>
    if a < c.1 then (a, v) :: c :: m
    else if a = c.1 then (a, v) :: m
    else c :: Memory.write m a v

/-- The canonical form: strictly rising addresses. An unlisted address is one not written, which no entry can say, so
no entry equals it. -/
abbrev Memory.wf (m : Memory) : Prop := m.Pairwise fun c d => c.1 < d.1

/-! ### RAM (R33, R37, R43, R111) -/

/-- The arbiter's bounds test (R37, R111): the word index of a RAM address, read as a signed integer, if
`0 <= addr < MEM_CAP`. -/
def ramAddr? (s : State) (addr : Word) : Option Nat :=
  if 0 ≤ addr.toInt ∧ addr.toInt < s.memCap then some addr.toInt.toNat else none

/-- `MemRead(a, 1)` (R43): the last word written at `a` since reset, or `MEM_INIT[a]` (R31; log 4). -/
def ramWord (s : State) (a : Nat) : Word := (Memory.read s.mem a).getD (Config.memInit s.launchNo a)

/-- `MemWrite(a, 1, v)` (R43). -/
def ramStore (s : State) (a : Nat) (v : Word) : State := { s with mem := Memory.write s.mem a v }

/-! ### The stack controller (R20, R22, R85) -/

/-- `STK[i]` (R22): the last word pushed there since reset, or the slot's unspecified contents (log 5). -/
def stackWord (s : State) (i : Nat) : Word := (Memory.read s.stk i).getD (Config.stkInit s.launchNo i)

/-- `STK[sp] <- v; sp <- sp + 1` (R82). -/
def pushWord (s : State) (v : Word) : State := { s with stk := Memory.write s.stk s.sp v, sp := s.sp + 1 }

/-- `sp <- sp - 1`; the slot left is not cleared (R83). -/
def dropTop (s : State) : State := { s with sp := s.sp - 1 }

/-! ### Completing an instruction, and taking a fault -/

/-- An instruction completes: `pc <- pc + 4` (R18, R100), and REG_DEFAULTED is set if its resolver read defaulted
(R27, R64). -/
def complete (s : State) (defaulted : Bool) : State :=
  { s with pc := s.pc + 4, warn := s.warn.noteDefaulted defaulted }

/-- Fault entry (R126): `run <- FAULTED; cause <- code(F)`, and nothing else changes. There is no return from it
(R131): only reset leaves FAULTED. -/
def takeFault (c : Cause) (s : State) : State := { s with run := .faulted, cause := c }

/-! ### The program image and the fetch unit (R96, R113) -/

/-- `ROM[a]`, asked only for `a < ROM_LEN`. -/
def romWord (s : State) (a : Nat) : Word := s.rom.getD a 0

/-- The fetch unit (R96): the four words at `pc` if `pc + 4 <= ROM_LEN`; otherwise no word is read. -/
def fetch (s : State) : Option (Word × Word × Word × Word) :=
  if s.pc + 4 ≤ s.rom.length then
    some (romWord s s.pc, romWord s (s.pc + 1), romWord s (s.pc + 2), romWord s (s.pc + 3))
  else none

/-- The image with `ws` placed from word `a` on, the words before it kept (0 where there were none). -/
def placeWords (rom : List Word) (a : Nat) (ws : List Word) : List Word :=
  rom.take a ++ List.replicate (a - rom.length) 0 ++ ws ++ rom.drop (a + ws.length)

/-- The state in which the four words `ws` are the instruction the next step fetches and runs: they stand in ROM at
`pc`, the core is RUNNING, and the host is quiet (log 3). -/
def placeInstruction (s : State) (ws : List Word) : State :=
  { s with rom := placeWords s.rom s.pc ws, run := .running, inReset := false, host := [] }

/-! ### Reset (R32, R97, R138, R139) -/

/-- The release of reset with `image` in ROM: every piece of state takes its reset value, RAM and the stack array are
unspecified afresh, and the image-length check decides between RUNNING and FAULTED with IMAGE_LENGTH (R97). The sizes
are build-time parameters and stay (R108). -/
def releaseReset (image : List Word) (s : State) : State :=
  { State.reset with
    rom := image
    memCap := s.memCap
    stackCap := s.stackCap
    host := s.host
    launchNo := s.launchNo + 1
    run := if image.length % 4 = 0 then .running else .faulted
    cause := if image.length % 4 = 0 then .none else .imageLength }

/-! ### Sampling the host (R101, R102, R103) -/

/-- What the sampling instant before a would-be step leads to. -/
inductive Sampled where
  /-- No instruction executes at this instant; the state is `s`. -/
  | rest (s : State)
  /-- The core fetches and executes one instruction from `s`. -/
  | go (s : State)
  deriving DecidableEq, Repr

/-- The `cancel` input sampled asserted (R103): RUNNING and HALTED become CANCELLED and nothing else changes; in
TERMINATED, CANCELLED and FAULTED, and while reset is held, it is ignored. -/
def takeCancel (s : State) : State :=
  if s.inReset then s
  else match s.run with
    | .running | .halted => { s with run := .cancelled }
    | .terminated | .cancelled | .faulted => s

/-- What the host does at the next sampling instant; a host with no move to come is idle (log 7). -/
def State.nextMove (s : State) : HostMove := s.host.head?.getD .idle

/-- The state once the host's next move has been sampled. -/
def State.consumeMove (s : State) : State := { s with host := s.host.tail }

/-- One sampling instant: the host's next move is consumed and decides. Nothing happens while reset is held (R108,
R138), nor, without a move, in a stopped core (R101, R102; log 9). -/
def sampleHost (s : State) : Sampled :=
  match s.nextMove with
  | .releaseReset image => .rest (releaseReset image s.consumeMove)
  | .holdReset => .rest { s.consumeMove with inReset := true }
  | .cancel => .rest (takeCancel s.consumeMove)
  | .idle => if s.inReset = false ∧ s.run = .running then .go s.consumeMove else .rest s.consumeMove

/-! ### What the host reads (R109) -/

/-- The 3-bit code of `run` (R25). -/
def RunState.code : RunState → BitVec 3
  | .running => 0
  | .halted => 1
  | .terminated => 2
  | .cancelled => 3
  | .faulted => 4

/-- The 3-bit code of `cause` (R26, R119). -/
def Cause.code : Cause → BitVec 3
  | .none => 0
  | .imageLength => 1
  | .fetchPastEnd => 2
  | .regIndex => 3
  | .divZero => 4
  | .memBounds => 5
  | .stackOverflow => 6
  | .stackUnderflow => 7

/-- The smallest width in bits, at least 1, that holds every number from 0 to `n`: `ceil(log2(n+1))` (R6). -/
def widthFor (n : Nat) : Nat := Nat.log2 n + 1

/-- PCW (R6): the width of `pc`, the smallest that holds ROM_LEN. -/
def State.pcw (s : State) : Nat := widthFor s.rom.length

/-- SPW (R6): the width of `sp`, the smallest that holds STACK_CAP. -/
def State.spw (s : State) : Nat := widthFor s.stackCap

/-- The register `pc` in its PCW bits; it never wraps, so they hold the whole of it (R17; log 12). -/
def State.pcBits (s : State) : BitVec s.pcw := BitVec.ofNat s.pcw s.pc

/-- The register `sp` in its SPW bits, which hold the whole of it (R21; log 12). -/
def State.spBits (s : State) : BitVec s.spw := BitVec.ofNat s.spw s.sp

/-- The outputs of R109, as the host reads them between steps, each in its width. -/
structure HostView (pcw spw : Nat) where
  run : BitVec 3
  cause : BitVec 3
  warn : BitVec 2
  x : Regs
  pc : BitVec pcw
  sp : BitVec spw
  deriving DecidableEq, Repr

def State.hostView (s : State) : HostView s.pcw s.spw :=
  { run := s.run.code, cause := s.cause.code, warn := s.warn.bits, x := s.x, pc := s.pcBits, sp := s.spBits }

end Sys2Proof.Machine
end

