-- ==== Sys2Proof/Machine/Operands.lean ====
section
/-! DEFINITION. The operand forms: register ids, the lenient register read, the operand resolver, and the destination
check (R52, R53, R64 to R68). -/
namespace Sys2Proof.Machine

/-- The register a word names, read as a signed integer: 0 to 3, and no other value (R14, R64, R66). -/
def regOf? (id : Word) : Option Reg :=
  if id = 0#32 then some .x0
  else if id = 1#32 then some .x1
  else if id = 2#32 then some .x2
  else if id = 3#32 then some .x3
  else none

/-- A resolved operand: its value, and whether the register read defaulted. -/
structure Resolved where
  value : Word
  defaulted : Bool
  deriving DecidableEq, Repr

/-- `RegRead(id)` (R64): the register's contents, or 0 when the id is out of range; never a fault. -/
def regRead (s : State) (id : Word) : Resolved :=
  match regOf? id with
  | some r => ⟨s.reg r, false⟩
  | none => ⟨0#32, true⟩

/-- `Resolve(raw, flag)` (R65): a clear flag (0) gives the word itself, any other flag the register it names (R52). -/
def resolve (s : State) (raw flag : Word) : Resolved :=
  if flag = 0#32 then ⟨raw, false⟩ else regRead s raw

/-- `DestCheck(rd)` (R66), the first check of every instruction that names a destination (R128): an id out of range
takes the fault REG_INDEX; otherwise the instruction goes on with the register named. -/
def withDest (rd : Word) (s : State) (body : Reg → Result) : Result :=
  match regOf? rd with
  | none => .next (takeFault .regIndex s)
  | some r => body r

/-- The arbiter's grant (R111): an address out of bounds takes the fault MEM_BOUNDS (R37, R124); otherwise the
instruction goes on with the word index. -/
def withRamAddr (addr : Word) (s : State) (body : Nat → Result) : Result :=
  match ramAddr? s addr with
  | none => .next (takeFault .memBounds s)
  | some a => body a

end Sys2Proof.Machine
end

