-- ==== Sys2Proof/Machine/Alu.lean ====
section
/-! DEFINITION. The ALU instructions MOV, ADD, SUB, MUL, DIV, XOR, OR, AND (R70 to R81). -/
namespace Sys2Proof.Machine

/-- `wrap(v)` (R9): the word whose signed reading is congruent to `v` modulo 2^32. -/
def wrap (v : Int) : Word := BitVec.ofInt 32 v

/-- R72, R79. -/
def aluAdd (a v : Word) : Word := wrap (a.toInt + v.toInt)

/-- R73, R79. -/
def aluSub (a v : Word) : Word := wrap (a.toInt - v.toInt)

/-- R74, R79. -/
def aluMul (a v : Word) : Word := wrap (a.toInt * v.toInt)

/-- R75, R80: the quotient rounded toward zero, wrapped; no quotient for divisor 0. -/
def aluDiv (a v : Word) : Except Cause Word :=
  if v = 0#32 then .error .divZero else .ok (wrap (a.toInt.tdiv v.toInt))

/-- The common shape (R70): destination check, resolve, operate on the old destination, write, advance. The operation
may raise a fault, and then nothing is written (R127). -/
def aluInstr (op : Word → Word → Except Cause Word) (rd val flag : Word) (s : State) : Result :=
  withDest rd s fun r =>
    match op (s.reg r) (resolve s val flag).value with
    | .error c => .next (takeFault c s)
    | .ok y => .next (complete (s.setReg r y) (resolve s val flag).defaulted)

/-- MOV (R71). -/
def execMov (rd val flag : Word) (s : State) : Result := aluInstr (fun _ v => .ok v) rd val flag s

/-- ADD (R72). -/
def execAdd (rd val flag : Word) (s : State) : Result := aluInstr (fun a v => .ok (aluAdd a v)) rd val flag s

/-- SUB (R73). -/
def execSub (rd val flag : Word) (s : State) : Result := aluInstr (fun a v => .ok (aluSub a v)) rd val flag s

/-- MUL (R74). -/
def execMul (rd val flag : Word) (s : State) : Result := aluInstr (fun a v => .ok (aluMul a v)) rd val flag s

/-- DIV (R75). -/
def execDiv (rd val flag : Word) (s : State) : Result := aluInstr aluDiv rd val flag s

/-- XOR (R76, R81). -/
def execXor (rd val flag : Word) (s : State) : Result := aluInstr (fun a v => .ok (a ^^^ v)) rd val flag s

/-- OR (R77, R81). -/
def execOr (rd val flag : Word) (s : State) : Result := aluInstr (fun a v => .ok (a ||| v)) rd val flag s

/-- AND (R78, R81). -/
def execAnd (rd val flag : Word) (s : State) : Result := aluInstr (fun a v => .ok (a &&& v)) rd val flag s

end Sys2Proof.Machine
end

