-- ==== Sys2Proof/Machine/Control.lean ====
section
/-! DEFINITION. The control instructions NOP, HLT, END, and every undefined opcode (R90 to R93). -/
namespace Sys2Proof.Machine

/-- NOP (R90). -/
def execNop (s : State) : Result := .next (complete s false)

/-- HLT (R91): `pc` holds the address after it (R19). -/
def execHlt (s : State) : Result := .next { complete s false with run := .halted }

/-- END (R92). -/
def execEnd (s : State) : Result := .next { complete s false with run := .terminated }

/-- UNDEF (R93): a four-word no-op that sets UNK_OPCODE, whatever the opcode word. -/
def execUndef (_opcode : Word) (s : State) : Result :=
  .next { complete s false with warn := s.warn.noteUnknown }

end Sys2Proof.Machine
end

