-- ==== Sys2Proof/Machine/LoadStore.lean ====
section
/-! DEFINITION. The load and store instructions STO and GET (R86, R87). -/
namespace Sys2Proof.Machine

/-- STO (R86): the address is always the literal word; the flag governs the value only. -/
def execSto (addr val flag : Word) (s : State) : Result :=
  withRamAddr addr s fun a =>
    .next (complete (ramStore s a (resolve s val flag).value) (resolve s val flag).defaulted)

/-- GET (R87): the destination is checked before the address (R128). -/
def execGet (addr rd : Word) (s : State) : Result :=
  withDest rd s fun r => withRamAddr addr s fun a => .next (complete (s.setReg r (ramWord s a)) false)

end Sys2Proof.Machine
end

