-- ==== Sys2Proof/Machine/Stack.lean ====
section
/-! DEFINITION. The stack instructions PUSH and POP (R82, R83, R85). -/
namespace Sys2Proof.Machine

/-- PUSH (R82). The stack is full at `sp = STACK_CAP`; `sp` never exceeds it (R21), and the test here also covers the
values above it, which no run reaches (log 12). -/
def execPush (val flag : Word) (s : State) : Result :=
  if s.stackCap ≤ s.sp then .next (takeFault .stackOverflow s)
  else .next (complete (pushWord s (resolve s val flag).value) (resolve s val flag).defaulted)

/-- POP (R83). -/
def execPop (rd : Word) (s : State) : Result :=
  withDest rd s fun r =>
    if s.sp = 0 then .next (takeFault .stackUnderflow s)
    else .next (complete (dropTop (s.setReg r (stackWord s (s.sp - 1)))) false)

end Sys2Proof.Machine
end

