-- ==== Sys2Proof/Machine/Dispatch.lean ====
section
/-! DEFINITION. Dispatch (R99): the decoded class selects the meaning that is executed. -/
namespace Sys2Proof.Machine

def exec (i : Instr) (s : State) : Host.Outcome State Fault Refusal :=
  match i with
  | .nop => Sys2Proof.Machine.execNop s
  | .mov rd val flag => Sys2Proof.Machine.execMov rd val flag s
  | .add rd val flag => Sys2Proof.Machine.execAdd rd val flag s
  | .sub rd val flag => Sys2Proof.Machine.execSub rd val flag s
  | .mul rd val flag => Sys2Proof.Machine.execMul rd val flag s
  | .div rd val flag => Sys2Proof.Machine.execDiv rd val flag s
  | .xor rd val flag => Sys2Proof.Machine.execXor rd val flag s
  | .or rd val flag => Sys2Proof.Machine.execOr rd val flag s
  | .and rd val flag => Sys2Proof.Machine.execAnd rd val flag s
  | .hlt => Sys2Proof.Machine.execHlt s
  | .push val flag => Sys2Proof.Machine.execPush val flag s
  | .pop rd => Sys2Proof.Machine.execPop rd s
  | .sto addr val flag => Sys2Proof.Machine.execSto addr val flag s
  | .get addr rd => Sys2Proof.Machine.execGet addr rd s
  | .end_ => Sys2Proof.Machine.execEnd s
  | .undef opcode => Sys2Proof.Machine.execUndef opcode s

end Sys2Proof.Machine
end

