-- ==== Sys2Proof/Machine/Step.lean ====
section
/-! DEFINITION. The step (R95, R104): sample the host, fetch, decode, execute; and the placing of an instruction where
the next step fetches. -/
namespace Sys2Proof.Machine

/-- One step (R104). At an instant at which the core does not execute (a host move, a stopped core, reset held) the
answer is the state that instant leaves (R101 to R103). -/
def step (s : State) : Host.Outcome State Fault Refusal :=
  match sampleHost s with
  | .rest t => .next t
  | .go t =>
    match fetch t with
    | none => .next (takeFault .fetchPastEnd t)
    | some (w0, w1, w2, w3) => exec (decodeWords w0 w1 w2 w3) t

/-- `s` with the instruction of bits `w` where the next step fetches it (log 3). -/
def State.withFetchWord (s : State) (nbits w : Nat) : State := placeInstruction s (tableWords nbits w)

end Sys2Proof.Machine
end

