-- ==== Sys2Proof/Safety.lean ====
section
/-! DEFINITION. The terms claims are stated in: the spec's arithmetic over unbounded integers (R9), what a state keeps
of another (frames), raising a fault (R126), the invariant of the machine, and runs of instructions. -/
namespace Sys2Proof.Machine

/-! ### Arithmetic of R9 -/

/-- `r = wrap(v)` (R9): the unique integer in `[INT_MIN, INT_MAX]` congruent to `v` modulo 2^32. -/
def IsWrap (v r : Int) : Prop := -2 ^ 31 ≤ r ∧ r ≤ 2 ^ 31 - 1 ∧ (2 ^ 32 : Int) ∣ v - r

/-- `tdiv(a, b)` (R9): `sign(a) * sign(b) * floor(abs(a) / abs(b))`. -/
def specTdiv (a b : Int) : Int := a.sign * b.sign * ((a.natAbs / b.natAbs : Nat) : Int)

/-- A register id outside `0..3`, read as a signed integer (R64, R66). -/
def IdOutOfRange (id : Word) : Prop := id.toInt < 0 ∨ 3 < id.toInt

/-- A RAM address outside `0 .. MEM_CAP-1`, read as a signed integer (R37). -/
def AddrOutOfBounds (s : State) (addr : Word) : Prop := addr.toInt < 0 ∨ (s.memCap : Int) ≤ addr.toInt

/-- An opcode word outside the 15 of R55: the ranges of R57. -/
def UndefinedOpcode (w0 : Word) : Prop :=
  w0.toInt ≤ -1 ∨ (14 ≤ w0.toInt ∧ w0.toInt ≤ 254) ∨ 256 ≤ w0.toInt

/-! ### Frames: what `t` keeps of `s` -/

/-- The program image, the sizes and the host's inputs, which no instruction writes (R13, R48). -/
def ParamsKept (s t : State) : Prop :=
  t.rom = s.rom ∧ t.memCap = s.memCap ∧ t.stackCap = s.stackCap ∧ t.inReset = s.inReset ∧ t.host = s.host ∧
    t.launchNo = s.launchNo

def RegsKept (s t : State) : Prop := ∀ q, t.reg q = s.reg q

def RegsKeptBut (r : Reg) (s t : State) : Prop := ∀ q, q ≠ r → t.reg q = s.reg q

/-- Every RAM word reads as before. -/
def RamKept (s t : State) : Prop := ∀ a, ramWord t a = ramWord s a

/-- Every RAM word but the one at `a` reads as before. -/
def RamKeptBut (a : Nat) (s t : State) : Prop := ∀ b, b ≠ a → ramWord t b = ramWord s b

/-- Every stack slot reads as before. -/
def SlotsKept (s t : State) : Prop := ∀ i, stackWord t i = stackWord s i

/-- The stack pointer and every stack slot are as before. -/
def StackKept (s t : State) : Prop := t.sp = s.sp ∧ SlotsKept s t

/-- The run state and the cause are as before. -/
def StatusKept (s t : State) : Prop := t.run = s.run ∧ t.cause = s.cause

/-- An instruction has completed (R18, R27): `pc + 4`, REG_DEFAULTED raised if its operand defaulted and else as it
was, UNK_OPCODE as it was, and the parameters kept. -/
def Advanced (defaulted : Bool) (s t : State) : Prop :=
  t.pc = s.pc + 4 ∧ t.warn.regDefaulted = (s.warn.regDefaulted || defaulted) ∧ t.warn.unkOpcode = s.warn.unkOpcode ∧
    ParamsKept s t

/-- `t` is `s` after fault entry with cause `c` (R126): `run` and `cause` written, everything else kept. -/
def FaultEntered (c : Cause) (s t : State) : Prop :=
  t.run = .faulted ∧ t.cause = c ∧ t.pc = s.pc ∧ t.warn = s.warn ∧ RegsKept s t ∧ RamKept s t ∧ StackKept s t ∧
    ParamsKept s t

/-- The instruction raises `c` in `s`: the next state is the fault entry. -/
def Raises (i : Instr) (s : State) (c : Cause) : Prop := ∃ t, exec i s = .next t ∧ FaultEntered c s t

/-- The whole rule of an instruction of form RVF that raises nothing but REG_INDEX (R70 to R74, R76 to R78): its
encoding; REG_INDEX for a destination out of range; otherwise completion with a result that stands in the relation
`result` to the old destination and the resolved operand, and the frame. -/
def RvfRule (opcode : Word) (instr : Word → Word → Word → Instr) (result : Word → Word → Word → Prop) : Prop :=
  ∀ (s : State) (rd val flag : Word),
    decodeWords opcode rd val flag = instr rd val flag ∧
    (IdOutOfRange rd → Raises (instr rd val flag) s .regIndex) ∧
    (∀ r : Reg, rd.toInt = r.index →
      ∃ t, exec (instr rd val flag) s = .next t ∧
        result (s.reg r) (resolve s val flag).value (t.reg r) ∧
        Advanced (resolve s val flag).defaulted s t ∧
        RegsKeptBut r s t ∧ RamKept s t ∧ StackKept s t ∧ StatusKept s t)

/-! ### When the core executes -/

/-- The core fetches at this instant (R95, R103): RUNNING, reset not held, and the host asserts nothing. -/
def Executes (s : State) : Prop := s.nextMove = .idle ∧ s.inReset = false ∧ s.run = .running

/-- The host asserts neither reset nor its release in the moves to come. -/
def HostNeverResets (s : State) : Prop := ∀ m ∈ s.host, m = .idle ∨ m = .cancel

/-! ### What an instruction may write and raise (R13, R15, R119) -/

/-- The destination register id an instruction names (R66). -/
def destOf : Instr → Option Word
  | .mov rd _ _ | .add rd _ _ | .sub rd _ _ | .mul rd _ _ | .div rd _ _ => some rd
  | .xor rd _ _ | .or rd _ _ | .and rd _ _ => some rd
  | .pop rd | .get _ rd => some rd
  | .nop | .hlt | .end_ | .undef _ | .push _ _ | .sto _ _ _ => none

/-- The operand pair an instruction gives to the resolver (R67). -/
def resolverPair : Instr → Option (Word × Word)
  | .mov _ val flag | .add _ val flag | .sub _ val flag | .mul _ val flag | .div _ val flag => some (val, flag)
  | .xor _ val flag | .or _ val flag | .and _ val flag => some (val, flag)
  | .push val flag | .sto _ val flag => some (val, flag)
  | .nop | .hlt | .end_ | .undef _ | .pop _ | .get _ _ => none

/-- Whether an instruction's resolver read defaults in `s` (R64, R67). -/
def operandDefaults (i : Instr) (s : State) : Bool :=
  match resolverPair i with
  | some (val, flag) => (resolve s val flag).defaulted
  | none => false

/-- The fault causes an instruction can raise, by the table of R119. -/
def causesOf : Instr → List Cause
  | .mov _ _ _ | .add _ _ _ | .sub _ _ _ | .mul _ _ _ => [.regIndex]
  | .xor _ _ _ | .or _ _ _ | .and _ _ _ => [.regIndex]
  | .div _ _ _ => [.regIndex, .divZero]
  | .pop _ => [.regIndex, .stackUnderflow]
  | .get _ _ => [.regIndex, .memBounds]
  | .sto _ _ _ => [.memBounds]
  | .push _ _ => [.stackOverflow]
  | .nop | .hlt | .end_ | .undef _ => []

/-! ### The invariant -/

/-- What every state between steps satisfies: sizes as R6 asks; the canonical form of RAM and stack, inside their
capacities (R33, R37, R38); the stack pointer in range and every occupied slot written (R20, R21, R22); `pc` a
multiple of 4 that has not passed the end of the image (R17); a cause exactly in FAULTED (R26); and IMAGE_LENGTH
exactly for an image whose length is not a multiple of 4, of which nothing has been executed (R97, R120). -/
structure MachineInv (s : State) : Prop where
  memCap_pos : 1 ≤ s.memCap
  stackCap_pos : 1 ≤ s.stackCap
  ram_wf : Memory.wf s.mem
  ram_inside : ∀ c ∈ s.mem, c.1 < s.memCap
  stk_wf : Memory.wf s.stk
  stk_inside : ∀ c ∈ s.stk, c.1 < s.stackCap
  sp_le : s.sp ≤ s.stackCap
  occupied_written : ∀ i, i < s.sp → (Memory.read s.stk i).isSome
  pc_aligned : s.pc % 4 = 0
  pc_le : s.pc ≤ s.rom.length
  cause_iff : s.cause ≠ .none ↔ s.run = .faulted
  imageLength_iff : s.cause = .imageLength ↔ s.rom.length % 4 ≠ 0
  imageLength_pc : s.cause = .imageLength → s.pc = 0

/-- Two states that differ at most in stack slots at or above the stack pointer (R22). -/
def SameButStale (s t : State) : Prop :=
  t = { s with stk := t.stk } ∧ ∀ i, i < s.sp → stackWord t i = stackWord s i

/-! ### Runs of instructions -/

/-- The instructions of a list, executed in order; a fault or refusal of the model ends it. -/
def execAll : List Instr → State → Result
  | [], s => .next s
  | i :: is, s =>
    match exec i s with
    | .next t => execAll is t
    | .fault f => .fault f
    | .refused r => .refused r

/-- A run is a success in the spec's sense (R106, R132): it has not faulted, and a strict host sees no warning. -/
def CleanRun (s : State) : Prop := s.run ≠ .faulted ∧ s.cause = .none ∧ s.warn.bits = 0

end Sys2Proof.Machine
end

