-- ==== Sys2Proof/Certificates/Slice0/Obligations.lean ====
section
/-! DEFINITION. The statements for the provers. Each docstring names the rule of spec/ it formalises and, where the
rule carries a decision of 92_eei_decisions.md, that decision; the frames and the spec's arithmetic are defined in
Sys2Proof/Safety.lean. In a statement about a step, `{ s with host := s.host.tail }` is `s` after the sampling instant
of that step: the host's moves are the model's form of its inputs (log 7). -/

open Sys2Proof Sys2Proof.Machine

/-! ### Encoding -/

/-- R95, R99, R104: when the core executes and the words at `pc` decode to `i`, the step is the execution of `i`, in
the state that has sampled the host (log 7). -/
def Obligations.StepRunsDecodedInstruction : Prop :=
  ∀ (s : State) (i : Instr) (rest : List Word), Executes s → decode (s.rom.drop s.pc) = .ok (i, rest) →
    step s = exec i { s with host := s.host.tail }

/-- The worked words of R62, R92 and R93 decode to the instructions they stand for. A sanity statement. -/
def Obligations.WorkedWordsDecode : Prop :=
  decodeWords 1#32 0#32 5#32 0#32 = .mov 0#32 5#32 0#32 ∧
  decodeWords 2#32 0#32 1#32 1#32 = .add 0#32 1#32 1#32 ∧
  decodeWords 10#32 2#32 1#32 0#32 = .push 2#32 1#32 ∧
  decodeWords 11#32 3#32 0#32 0#32 = .pop 3#32 ∧
  decodeWords 12#32 100#32 2#32 1#32 = .sto 100#32 2#32 1#32 ∧
  decodeWords 13#32 100#32 3#32 0#32 = .get 100#32 3#32 ∧
  decodeWords 9#32 0#32 0#32 0#32 = .hlt ∧
  decodeWords 255#32 0#32 0#32 0#32 = .end_ ∧
  decodeWords 4294967295#32 0#32 0#32 0#32 = .undef 4294967295#32 ∧
  decodeWords 14#32 99#32 99#32 99#32 = .undef 14#32

/-- R54, R98 (decision D10): the decoder looks at the whole opcode word as a signed integer, selects by exact equality
with one of the 15 values of the opcode map, and gives UNDEF for every other value; the operand words go where the
format of the class says. -/
def Obligations.OpcodeSelectsByWholeWord : Prop :=
  ∀ w0 w1 w2 w3 : Word,
    (w0.toInt = 0 → decodeWords w0 w1 w2 w3 = .nop) ∧
    (w0.toInt = 1 → decodeWords w0 w1 w2 w3 = .mov w1 w2 w3) ∧
    (w0.toInt = 2 → decodeWords w0 w1 w2 w3 = .add w1 w2 w3) ∧
    (w0.toInt = 3 → decodeWords w0 w1 w2 w3 = .sub w1 w2 w3) ∧
    (w0.toInt = 4 → decodeWords w0 w1 w2 w3 = .mul w1 w2 w3) ∧
    (w0.toInt = 5 → decodeWords w0 w1 w2 w3 = .div w1 w2 w3) ∧
    (w0.toInt = 6 → decodeWords w0 w1 w2 w3 = .xor w1 w2 w3) ∧
    (w0.toInt = 7 → decodeWords w0 w1 w2 w3 = .or w1 w2 w3) ∧
    (w0.toInt = 8 → decodeWords w0 w1 w2 w3 = .and w1 w2 w3) ∧
    (w0.toInt = 9 → decodeWords w0 w1 w2 w3 = .hlt) ∧
    (w0.toInt = 10 → decodeWords w0 w1 w2 w3 = .push w1 w2) ∧
    (w0.toInt = 11 → decodeWords w0 w1 w2 w3 = .pop w1) ∧
    (w0.toInt = 12 → decodeWords w0 w1 w2 w3 = .sto w1 w2 w3) ∧
    (w0.toInt = 13 → decodeWords w0 w1 w2 w3 = .get w1 w2) ∧
    (w0.toInt = 255 → decodeWords w0 w1 w2 w3 = .end_) ∧
    (UndefinedOpcode w0 → decodeWords w0 w1 w2 w3 = .undef w0)

/-- R56 (decision D11): the words a format ignores have no effect, since the instruction decoded is the same whatever
they hold. -/
def Obligations.IgnoredWordsHaveNoEffect : Prop :=
  ∀ w0 w1 w2 w3 v1 v2 v3 : Word,
    ((w0.toInt = 0 ∨ w0.toInt = 9 ∨ w0.toInt = 255 ∨ UndefinedOpcode w0) →
      decodeWords w0 w1 w2 w3 = decodeWords w0 v1 v2 v3) ∧
    (w0.toInt = 10 → decodeWords w0 w1 w2 w3 = decodeWords w0 w1 w2 v3) ∧
    (w0.toInt = 11 → decodeWords w0 w1 w2 w3 = decodeWords w0 w1 v2 v3) ∧
    (w0.toInt = 13 → decodeWords w0 w1 w2 w3 = decodeWords w0 w1 w2 v3)

/-- Encoding and decoding agree, for every well-formed instruction, every operand word, and whatever follows in the
image (R49 to R51, R55, R57). -/
def Obligations.DecodeInvertsEncode : Prop :=
  ∀ (i : Instr) (rest : List Word), i.wellFormed = true → decode (encode i ++ rest) = .ok (i, rest)

/-- The other direction: the words of a decoded instruction are those it was decoded from, but for ignored words, which
are 0; and they decode to the same instruction (R51, R56, R62). -/
def Obligations.EncodeInvertsDecode : Prop :=
  ∀ w0 w1 w2 w3 : Word, ∃ v1 v2 v3 : Word,
    encode (decodeWords w0 w1 w2 w3) = [w0, v1, v2, v3] ∧
    decodeWords w0 v1 v2 v3 = decodeWords w0 w1 w2 w3 ∧
    (v1 = w1 ∨ v1 = 0#32) ∧ (v2 = w2 ∨ v2 = 0#32) ∧ (v3 = w3 ∨ v3 = 0#32)

/-- Every four words decode to a well-formed instruction (R57, R58, R98). -/
def Obligations.DecodedIsWellFormed : Prop :=
  ∀ w0 w1 w2 w3 : Word, (decodeWords w0 w1 w2 w3).wellFormed = true

/-- The decoder rejects exactly the lists that hold fewer than four words (R39, R49). -/
def Obligations.ShortListsAreRejected : Prop :=
  ∀ ws : List Word, decode ws = .error .truncated ↔ ws.length < 4

/-! ### Operands -/

/-- R64 (decision D7): the lenient register read, and the warning of an instruction that completes with one. -/
def Obligations.RegReadIsLenient : Prop :=
  ∀ (s : State) (id : Word),
    (∀ r : Reg, id.toInt = r.index → regRead s id = ⟨s.reg r, false⟩) ∧
    (IdOutOfRange id → regRead s id = ⟨0#32, true⟩) ∧
    (IdOutOfRange id → ∀ (i : Instr) (flag : Word) (t : State), resolverPair i = some (id, flag) → flag.toInt ≠ 0 →
      exec i s = .next t → t.pc = s.pc + 4 → t.warn.regDefaulted = true)

/-- R65: the resolver takes the register path for every nonzero flag and the immediate path for flag 0. -/
def Obligations.ResolveByFlag : Prop :=
  ∀ (s : State) (raw flag : Word),
    (flag.toInt ≠ 0 → resolve s raw flag = regRead s raw) ∧
    (flag.toInt = 0 → resolve s raw flag = ⟨raw, false⟩)

/-- R122 (decision D7): REG_INDEX is raised exactly when an instruction's destination id is out of range. -/
def Obligations.RegIndexFaultExactly : Prop :=
  ∀ (i : Instr) (s : State),
    (∀ rd, destOf i = some rd → IdOutOfRange rd → Raises i s .regIndex) ∧
    (∀ t, exec i s = .next t → s.run ≠ .faulted → t.run = .faulted → t.cause = .regIndex →
      ∃ rd, destOf i = some rd ∧ IdOutOfRange rd)

/-! ### ALU instructions -/

/-- R71. -/
def Obligations.MovWritesOperand : Prop := RvfRule 1#32 .mov fun _ v y => y = v

/-- R72 (the wrap is decisions D1, D2). -/
def Obligations.AddWrapsSum : Prop := RvfRule 2#32 .add fun a v y => IsWrap (a.toInt + v.toInt) y.toInt

/-- R73. -/
def Obligations.SubWrapsDifference : Prop := RvfRule 3#32 .sub fun a v y => IsWrap (a.toInt - v.toInt) y.toInt

/-- R74. -/
def Obligations.MulWrapsProduct : Prop := RvfRule 4#32 .mul fun a v y => IsWrap (a.toInt * v.toInt) y.toInt

/-- R75 (decisions D3, D4): DIV. The destination is checked first; then divisor 0 raises DIV_ZERO, however the 0 came
about; otherwise the wrapped quotient of R9 is written. -/
def Obligations.DivTruncatesOrFaults : Prop :=
  ∀ (s : State) (rd val flag : Word),
    decodeWords 5#32 rd val flag = .div rd val flag ∧
    (IdOutOfRange rd → Raises (.div rd val flag) s .regIndex) ∧
    (∀ r : Reg, rd.toInt = r.index → (resolve s val flag).value.toInt = 0 → Raises (.div rd val flag) s .divZero) ∧
    (∀ r : Reg, rd.toInt = r.index → (resolve s val flag).value.toInt ≠ 0 →
      ∃ t, exec (.div rd val flag) s = .next t ∧
        IsWrap (specTdiv (s.reg r).toInt (resolve s val flag).value.toInt) (t.reg r).toInt ∧
        Advanced (resolve s val flag).defaulted s t ∧
        RegsKeptBut r s t ∧ RamKept s t ∧ StackKept s t ∧ StatusKept s t)

/-- R76. -/
def Obligations.XorIsBitwise : Prop :=
  RvfRule 6#32 .xor fun a v y => ∀ k, k < 32 → y.getLsbD k = Bool.xor (a.getLsbD k) (v.getLsbD k)

/-- R77. -/
def Obligations.OrIsBitwise : Prop :=
  RvfRule 7#32 .or fun a v y => ∀ k, k < 32 → y.getLsbD k = (a.getLsbD k || v.getLsbD k)

/-- R78. -/
def Obligations.AndIsBitwise : Prop :=
  RvfRule 8#32 .and fun a v y => ∀ k, k < 32 → y.getLsbD k = (a.getLsbD k && v.getLsbD k)

/-- R80 (decisions D3, D4): the division law. The quotient `q` rounds toward zero with a remainder of the sign of the
dividend, the word written is `wrap(q)`, and the one pair for which that differs from `q` is INT_MIN by -1. -/
def Obligations.DivisionLaw : Prop :=
  ∀ a v : Word,
    (v.toInt = 0 → aluDiv a v = .error .divZero) ∧
    (v.toInt ≠ 0 → ∃ (y : Word) (q m : Int), aluDiv a v = .ok y ∧ IsWrap q y.toInt ∧
      a.toInt = q * v.toInt + m ∧ m.natAbs < v.toInt.natAbs ∧ (m = 0 ∨ m.sign = a.toInt.sign) ∧
      (q ≠ 0 → q.sign = a.toInt.sign * v.toInt.sign) ∧ (a.toInt.natAbs < v.toInt.natAbs → q = 0) ∧
      (y.toInt ≠ q ↔ a.toInt = -2 ^ 31 ∧ v.toInt = -1) ∧
      (a.toInt = -2 ^ 31 ∧ v.toInt = -1 → y.toInt = -2 ^ 31))

/-! ### Stack instructions -/

/-- R82 (decisions D12, D13): PUSH. On a full stack STACK_OVERFLOW and nothing else; below, the resolved operand goes
into the slot at `sp` and `sp` rises by 1. It has no destination register. -/
def Obligations.PushStoresAtStackPointer : Prop :=
  ∀ (s : State) (val flag w3 : Word),
    decodeWords 10#32 val flag w3 = .push val flag ∧
    (s.sp = s.stackCap → Raises (.push val flag) s .stackOverflow) ∧
    (s.sp < s.stackCap →
      ∃ t, exec (.push val flag) s = .next t ∧
        stackWord t s.sp = (resolve s val flag).value ∧ t.sp = s.sp + 1 ∧
        (∀ k, k ≠ s.sp → stackWord t k = stackWord s k) ∧
        Advanced (resolve s val flag).defaulted s t ∧
        RegsKept s t ∧ RamKept s t ∧ StatusKept s t)

/-- R83 (decisions D12, D13): POP. A bad destination first, then the empty stack; otherwise the top of stack goes into
the register, `sp` falls by 1, and no slot is cleared. -/
def Obligations.PopTakesStackTop : Prop :=
  ∀ (s : State) (rd w2 w3 : Word),
    decodeWords 11#32 rd w2 w3 = .pop rd ∧
    (IdOutOfRange rd → Raises (.pop rd) s .regIndex) ∧
    (∀ r : Reg, rd.toInt = r.index → s.sp = 0 → Raises (.pop rd) s .stackUnderflow) ∧
    (∀ r : Reg, rd.toInt = r.index → 0 < s.sp →
      ∃ t, exec (.pop rd) s = .next t ∧
        t.reg r = stackWord s (s.sp - 1) ∧ t.sp = s.sp - 1 ∧ SlotsKept s t ∧
        Advanced false s t ∧
        RegsKeptBut r s t ∧ RamKept s t ∧ StatusKept s t)

/-- The law (a) of 42_stack.md, which the spec derives from R82 and R83: PUSH of a register, with any set flag, followed
by POP of the same register restores it and the stack pointer, and changes nothing else but the slot used and `pc`. -/
def Obligations.PushThenPopRestores : Prop :=
  ∀ (s : State) (r : Reg) (rd flag : Word), rd.toInt = r.index → flag.toInt ≠ 0 → s.sp < s.stackCap →
    ∃ t, execAll [.push rd flag, .pop rd] s = .next t ∧
      RegsKept s t ∧ t.sp = s.sp ∧ RamKept s t ∧ StatusKept s t ∧ t.warn = s.warn ∧ t.pc = s.pc + 8 ∧
      ParamsKept s t ∧ ∀ k, k ≠ s.sp → stackWord t k = stackWord s k

/-- The law (b) of 42_stack.md, which the spec derives from R82 and R83, from any fill level with room for the values:
pushed in a row and then popped in a row, they come back in reverse order, one a POP, the stack pointer falls back by one
each, and the slots that were occupied before are as they were. -/
def Obligations.StackIsLastInFirstOut : Prop :=
  ∀ (s : State) (vals : List Word) (r : Reg) (rd : Word), rd.toInt = r.index →
    s.sp + vals.length ≤ s.stackCap →
    ∀ k, k < vals.length →
      ∃ t, execAll (vals.map (fun v => .push v 0#32) ++ List.replicate (k + 1) (.pop rd)) s = .next t ∧
        vals[vals.length - 1 - k]? = some (t.reg r) ∧
        t.sp = s.sp + vals.length - (k + 1) ∧
        RegsKeptBut r s t ∧ RamKept s t ∧ ∀ j, j < s.sp → stackWord t j = stackWord s j

/-! ### Load and store -/

/-- R86 (decisions D12, D15): STO. Out of bounds, MEM_BOUNDS and nothing else; otherwise exactly the RAM word at the
literal address takes the resolved operand. -/
def Obligations.StoWritesOneWord : Prop :=
  ∀ (s : State) (addr val flag : Word),
    decodeWords 12#32 addr val flag = .sto addr val flag ∧
    (AddrOutOfBounds s addr → Raises (.sto addr val flag) s .memBounds) ∧
    (0 ≤ addr.toInt → addr.toInt < s.memCap →
      ∃ t, exec (.sto addr val flag) s = .next t ∧
        ramWord t addr.toInt.toNat = (resolve s val flag).value ∧ RamKeptBut addr.toInt.toNat s t ∧
        Advanced (resolve s val flag).defaulted s t ∧
        RegsKept s t ∧ StackKept s t ∧ StatusKept s t)

/-- R87 (decision D15): GET. The destination is checked before the address; otherwise the RAM word goes into the
register, and RAM is as it was. A word no STO has written is the free value of log 4. -/
def Obligations.GetLoadsOneWord : Prop :=
  ∀ (s : State) (addr rd w3 : Word),
    decodeWords 13#32 addr rd w3 = .get addr rd ∧
    (IdOutOfRange rd → Raises (.get addr rd) s .regIndex) ∧
    (∀ r : Reg, rd.toInt = r.index → AddrOutOfBounds s addr → Raises (.get addr rd) s .memBounds) ∧
    (∀ r : Reg, rd.toInt = r.index → 0 ≤ addr.toInt → addr.toInt < s.memCap →
      ∃ t, exec (.get addr rd) s = .next t ∧
        t.reg r = ramWord s addr.toInt.toNat ∧
        Advanced false s t ∧
        RegsKeptBut r s t ∧ RamKept s t ∧ StackKept s t ∧ StatusKept s t)

/-- The load/store law of 43_loadstore.md, which the spec derives from R86 and R87: a GET after a STO to the same
address loads the word stored, whatever instructions ran in between, as long as none of them is a STO to that address;
and the pair alone changes nothing but the RAM word and the register. -/
def Obligations.StoreThenLoad : Prop :=
  ∀ (s : State) (addr val flag rd : Word) (r : Reg), rd.toInt = r.index → 0 ≤ addr.toInt → addr.toInt < s.memCap →
    (∀ (mid : List Instr) (u : State), (∀ i ∈ mid, ∀ v f, i ≠ .sto addr v f) →
      execAll (.sto addr val flag :: mid) s = .next u →
      ∃ t, exec (.get addr rd) u = .next t ∧ t.reg r = (resolve s val flag).value ∧
        RegsKeptBut r u t ∧ RamKept u t ∧ StackKept u t) ∧
    (∃ t, execAll [.sto addr val flag, .get addr rd] s = .next t ∧
      t.reg r = (resolve s val flag).value ∧ ramWord t addr.toInt.toNat = (resolve s val flag).value ∧
      RegsKeptBut r s t ∧ RamKeptBut addr.toInt.toNat s t ∧ StackKept s t)

/-- The RAM primitives of R43, which the spec derives from R35 and R37: a read gives the last word written there, any
other word is as it was, and before any write since reset the word is MEM_INIT, the free value of log 4. -/
def Obligations.RamReadsLastWrite : Prop :=
  (∀ (s : State) (a : Nat) (v : Word), ramWord (ramStore s a v) a = v ∧ RamKeptBut a s (ramStore s a v)) ∧
  (∀ (s : State) (a : Nat), (∀ c ∈ s.mem, c.1 ≠ a) → ramWord s a = Config.memInit s.launchNo a)

/-! ### Control -/

/-- R90. -/
def Obligations.NopOnlyAdvances : Prop :=
  ∀ (s : State) (w1 w2 w3 : Word),
    decodeWords 0#32 w1 w2 w3 = .nop ∧
    ∃ t, exec .nop s = .next t ∧ Advanced false s t ∧
      RegsKept s t ∧ RamKept s t ∧ StackKept s t ∧ StatusKept s t

/-- R91: HLT enters HALTED with `pc` after it, and there the core stands still until `cancel` or reset. -/
def Obligations.HltEntersHalted : Prop :=
  ∀ (s : State) (w1 w2 w3 : Word),
    decodeWords 9#32 w1 w2 w3 = .hlt ∧
    ∃ t, exec .hlt s = .next t ∧ t.run = .halted ∧ t.cause = s.cause ∧ Advanced false s t ∧
      RegsKept s t ∧ RamKept s t ∧ StackKept s t ∧
      (t.nextMove = .idle → step t = .next { t with host := t.host.tail }) ∧
      (t.nextMove = .cancel → t.inReset = false →
        step t = .next { t with host := t.host.tail, run := .cancelled })

/-- R92: END enters TERMINATED with `pc` after it and writes no register; after it nothing executes and `cancel` is
ignored. -/
def Obligations.EndTerminates : Prop :=
  ∀ (s : State) (w1 w2 w3 : Word),
    decodeWords 255#32 w1 w2 w3 = .end_ ∧
    ∃ t, exec .end_ s = .next t ∧ t.run = .terminated ∧ t.cause = s.cause ∧ Advanced false s t ∧
      RegsKept s t ∧ RamKept s t ∧ StackKept s t ∧
      (t.nextMove = .idle ∨ t.nextMove = .cancel → step t = .next { t with host := t.host.tail })

/-- R93 (decision D8): an undefined opcode is a four-word no-op that sets UNK_OPCODE, and never faults. -/
def Obligations.UndefSkipsWithWarning : Prop :=
  ∀ (s : State) (w0 w1 w2 w3 : Word),
    (UndefinedOpcode w0 → decodeWords w0 w1 w2 w3 = .undef w0) ∧
    ∃ t, exec (.undef w0) s = .next t ∧ t.pc = s.pc + 4 ∧
      t.warn.unkOpcode = true ∧ t.warn.regDefaulted = s.warn.regDefaulted ∧
      RegsKept s t ∧ RamKept s t ∧ StackKept s t ∧ StatusKept s t ∧ ParamsKept s t

/-! ### Faults and warnings -/

/-- No state and no instruction stops the model: every instruction and every step answers a next state (R58, R95,
R126). -/
def Obligations.EverythingAnswersNext : Prop :=
  (∀ (i : Instr) (s : State), ∃ t, exec i s = .next t) ∧ ∀ s : State, ∃ t, step s = .next t

/-- R126 (decisions D5, D19): fault entry. An instruction that ends FAULTED has changed `run` and `cause` and nothing
else, and its cause is one it can raise (the table of R119); and so a fetch that faults. IMAGE_LENGTH, which no step
raises, is in `ResetReleaseInitialises`. -/
def Obligations.FaultsArePrecise : Prop :=
  (∀ (i : Instr) (s t : State), exec i s = .next t → s.run ≠ .faulted → t.run = .faulted →
    ∃ c ∈ causesOf i, c ≠ .none ∧ FaultEntered c s t) ∧
  (∀ s t : State, Executes s → s.rom.length < s.pc + 4 → step s = .next t →
    FaultEntered .fetchPastEnd { s with host := s.host.tail } t)

/-- R123, R124, R125 (decisions D5, D15): the instructions' own faults are raised exactly when their rules say, once the
destination id is in range. The premise on the stack pointer is an invariant of the machine (`MachineInv.sp_le`). -/
def Obligations.OwnFaultsExactly : Prop :=
  ∀ (i : Instr) (s t : State), s.sp ≤ s.stackCap → exec i s = .next t → s.run ≠ .faulted →
    ((t.run = .faulted ∧ t.cause = .divZero) ↔
      ∃ rd val flag, i = .div rd val flag ∧ ¬ IdOutOfRange rd ∧ (resolve s val flag).value.toInt = 0) ∧
    ((t.run = .faulted ∧ t.cause = .memBounds) ↔
      (∃ addr val flag, i = .sto addr val flag ∧ AddrOutOfBounds s addr) ∨
      (∃ addr rd, i = .get addr rd ∧ ¬ IdOutOfRange rd ∧ AddrOutOfBounds s addr)) ∧
    ((t.run = .faulted ∧ t.cause = .stackOverflow) ↔ ∃ val flag, i = .push val flag ∧ s.sp = s.stackCap) ∧
    ((t.run = .faulted ∧ t.cause = .stackUnderflow) ↔ ∃ rd, i = .pop rd ∧ ¬ IdOutOfRange rd ∧ s.sp = 0)

/-- R128 (decision D23): the fixed order. `cancel` wins over the fetch and over any fault of the instruction at `pc`;
then FETCH_PAST_END; then REG_INDEX, whatever other fault the instruction could raise; the instruction's own fault only
when its destination is in range. -/
def Obligations.FaultPriority : Prop :=
  (∀ s : State, s.nextMove = .cancel → s.inReset = false → s.run = .running →
    step s = .next { s with host := s.host.tail, run := .cancelled }) ∧
  (∀ s : State, Executes s → s.rom.length < s.pc + 4 →
    ∃ t, step s = .next t ∧ FaultEntered .fetchPastEnd { s with host := s.host.tail } t) ∧
  (∀ (i : Instr) (s : State) (rd : Word), destOf i = some rd → IdOutOfRange rd → Raises i s .regIndex) ∧
  (∀ (i : Instr) (s t : State), exec i s = .next t → s.run ≠ .faulted → t.run = .faulted → t.cause ≠ .regIndex →
    ∀ rd, destOf i = some rd → ¬ IdOutOfRange rd)

/-- R132 (decisions D7, D8): the warnings. UNK_OPCODE is set by a completed UNDEF and REG_DEFAULTED by a completed
instruction whose read defaulted, and by nothing else; no step clears one but a release of reset; and what an
instruction computes does not depend on them. -/
def Obligations.WarningsAreStickyAndInert : Prop :=
  (∀ (i : Instr) (s t : State), exec i s = .next t → s.run ≠ .faulted →
    (t.run = .faulted → t.warn = s.warn) ∧
    (t.run ≠ .faulted →
      t.warn.unkOpcode = (s.warn.unkOpcode || (match i with | .undef _ => true | _ => false)) ∧
      t.warn.regDefaulted = (s.warn.regDefaulted || operandDefaults i s))) ∧
  (∀ s t : State, step s = .next t → (∀ image, s.nextMove ≠ .releaseReset image) →
    (s.warn.unkOpcode = true → t.warn.unkOpcode = true) ∧
    (s.warn.regDefaulted = true → t.warn.regDefaulted = true)) ∧
  (∀ (i : Instr) (s t : State) (w : Warn), exec i s = .next t →
    ∃ w', exec i { s with warn := w } = .next { t with warn := w' })

/-- A host that reads the outputs at the end of a run misses nothing: a state that has faulted or warned never steps,
without a reset, to one that has not (R102, R106, R132). -/
def Obligations.EndOfRunTellsAll : Prop :=
  ∀ s t : State, step s = .next t → (∀ image, s.nextMove ≠ .releaseReset image) → CleanRun t → CleanRun s

/-! ### Fetch and the program counter -/

/-- R96: the fetch unit. With fewer than four words left it raises FETCH_PAST_END and `pc` stays; otherwise the four
words of ROM from `pc` on are the instruction, whatever its opcode. -/
def Obligations.FetchReadsFourWords : Prop :=
  ∀ s : State, Executes s →
    (s.rom.length < s.pc + 4 →
      ∃ t, step s = .next t ∧ FaultEntered .fetchPastEnd { s with host := s.host.tail } t) ∧
    (∀ w0 w1 w2 w3 : Word, s.rom[s.pc]? = some w0 → s.rom[s.pc + 1]? = some w1 → s.rom[s.pc + 2]? = some w2 →
      s.rom[s.pc + 3]? = some w3 →
      step s = exec (decodeWords w0 w1 w2 w3) { s with host := s.host.tail })

/-- R18 (decision D19): an instruction that does not fault leaves `pc + 4`, HLT, END and undefined opcodes included; an
instruction or a fetch that faults leaves `pc`. -/
def Obligations.PcAdvancesByFour : Prop :=
  (∀ (i : Instr) (s t : State), exec i s = .next t → s.run ≠ .faulted →
    (t.run ≠ .faulted → t.pc = s.pc + 4) ∧ (t.run = .faulted → t.pc = s.pc)) ∧
  (∀ s t : State, Executes s → s.rom.length < s.pc + 4 → step s = .next t → t.pc = s.pc)

/-- R100 (decision D19): the pc sequencer writes nothing but 0, at reset, and `pc + 4`. -/
def Obligations.PcSequencerHasNoOtherInput : Prop :=
  ∀ s t : State, step s = .next t →
    t.pc = s.pc ∨ (t.pc = s.pc + 4 ∧ Executes s) ∨ (t.pc = 0 ∧ ∃ image, s.nextMove = .releaseReset image)

/-- Running off the end, which the spec derives from R96 and R97: in a state that meets the invariant, FETCH_PAST_END is
raised only with `pc` exactly at the end of the image, and there always. -/
def Obligations.RunningOffTheEnd : Prop :=
  ∀ s : State, MachineInv s →
    (∀ t, step s = .next t → s.cause ≠ .fetchPastEnd → t.cause = .fetchPastEnd →
      s.pc = s.rom.length ∧ t.pc = s.pc ∧ t.run = .faulted) ∧
    (Executes s → s.pc = s.rom.length →
      ∃ t, step s = .next t ∧ FaultEntered .fetchPastEnd { s with host := s.host.tail } t)

/-! ### The run-state machine and the host -/

/-- R101: in HALTED no step happens and no state changes, however long the core is left; only `cancel` (or reset)
leaves it. -/
def Obligations.HaltedStandsStill : Prop :=
  ∀ s : State, s.run = .halted → s.inReset = false →
    (s.nextMove = .idle → step s = .next { s with host := s.host.tail }) ∧
    (s.nextMove = .cancel → step s = .next { s with host := s.host.tail, run := .cancelled }) ∧
    (s.host = [] → ∀ n, core.run n s = .next s)

/-- R102 (decision D28): TERMINATED, CANCELLED and FAULTED are left only by reset: as long as the host does not reset,
any number of steps leaves everything but the host's moves as it was. -/
def Obligations.StoppedStatesAreTerminal : Prop :=
  ∀ s : State, s.run = .terminated ∨ s.run = .cancelled ∨ s.run = .faulted → HostNeverResets s →
    ∀ n, core.run n s = .next { s with host := s.host.drop n }

/-- R103 (decision D20): `cancel` sampled asserted in RUNNING or HALTED gives CANCELLED and changes nothing else, and
nothing is fetched; in TERMINATED, CANCELLED and FAULTED it is ignored. -/
def Obligations.CancelBetweenSteps : Prop :=
  ∀ s : State, s.nextMove = .cancel → s.inReset = false →
    (s.run = .running ∨ s.run = .halted → step s = .next { s with host := s.host.tail, run := .cancelled }) ∧
    (s.run = .terminated ∨ s.run = .cancelled ∨ s.run = .faulted → step s = .next { s with host := s.host.tail })

/-- Which events enter and leave each run state (R91, R92, R101, R102 and the table of R103): HALTED is entered only by a
HLT that executes, TERMINATED only by an END, CANCELLED only by `cancel`, RUNNING only by a release of reset. -/
def Obligations.RunStateChangesOnlyBy : Prop :=
  ∀ s t : State, step s = .next t → t.run ≠ s.run →
    (∃ image, s.nextMove = .releaseReset image) ∨
    (s.nextMove = .cancel ∧ (s.run = .running ∨ s.run = .halted) ∧ t.run = .cancelled) ∨
    (Executes s ∧ t.run = .halted ∧ ∃ rest, decode (s.rom.drop s.pc) = .ok (.hlt, rest)) ∨
    (Executes s ∧ t.run = .terminated ∧ ∃ rest, decode (s.rom.drop s.pc) = .ok (.end_, rest)) ∨
    (Executes s ∧ t.run = .faulted)

/-- R25, R26, R27, R109 (decisions D6, D24): the codes the host reads. -/
def Obligations.HostReadsCodes : Prop :=
  RunState.running.code = 0 ∧ RunState.halted.code = 1 ∧ RunState.terminated.code = 2 ∧ RunState.cancelled.code = 3 ∧
  RunState.faulted.code = 4 ∧
  Cause.none.code = 0 ∧ Cause.imageLength.code = 1 ∧ Cause.fetchPastEnd.code = 2 ∧ Cause.regIndex.code = 3 ∧
  Cause.divZero.code = 4 ∧ Cause.memBounds.code = 5 ∧ Cause.stackOverflow.code = 6 ∧ Cause.stackUnderflow.code = 7 ∧
  (∀ w : Warn, w.bits.getLsbD 0 = w.unkOpcode ∧ w.bits.getLsbD 1 = w.regDefaulted) ∧
  ∀ s : State, s.hostView = ⟨s.run.code, s.cause.code, s.warn.bits, s.x, s.pcBits, s.spBits⟩

/-! ### Reset -/

/-- R32 (decisions D13, D18, D24): the release of reset. Registers, `pc`, `sp` and the warnings are 0, and the core is
RUNNING with no cause, or FAULTED with IMAGE_LENGTH when the length of the image is no multiple of 4. What RAM and the
stack array hold is unspecified by R32, and nothing is stated of it here. -/
def Obligations.ResetReleaseInitialises : Prop :=
  ∀ (s : State) (image : List Word), s.nextMove = .releaseReset image →
    ∃ t, step s = .next t ∧
      (∀ r, t.reg r = 0#32) ∧ t.pc = 0 ∧ t.sp = 0 ∧ t.warn.unkOpcode = false ∧ t.warn.regDefaulted = false ∧
      (t.rom.length % 4 = 0 → t.run = .running ∧ t.cause = .none) ∧
      (t.rom.length % 4 ≠ 0 → t.run = .faulted ∧ t.cause = .imageLength)

/-- The model's own form of a release of reset: the image of the host's move is in ROM and the sizes stay (log 2, log 8),
and every word of RAM and of the stack array is the free value of the new run, whatever was written before (log 4,
log 5, log 6). -/
def Obligations.ReleasePlacesImageAndFreesMemory : Prop :=
  ∀ (s : State) (image : List Word), s.nextMove = .releaseReset image →
    ∃ t, step s = .next t ∧ t.rom = image ∧ t.memCap = s.memCap ∧ t.stackCap = s.stackCap ∧ t.inReset = false ∧
      (∀ a, ramWord t a = Config.memInit (s.launchNo + 1) a) ∧
      (∀ k, stackWord t k = Config.stkInit (s.launchNo + 1) k)

/-- Nothing of the previous run survives a reset (R139, in the model's form: log 6, log 8): from any two states whatever
that agree on the build-time sizes, on the host's moves and on the number of the launch, the release of reset gives the
same state. -/
def Obligations.NothingSurvivesReset : Prop :=
  ∀ (s t : State) (image : List Word), s.nextMove = .releaseReset image → t.nextMove = .releaseReset image →
    s.memCap = t.memCap → s.stackCap = t.stackCap → s.host.tail = t.host.tail → s.launchNo = t.launchNo →
    step s = step t

/-- R108, R138, in the model's form of the reset input (log 8): while reset is held the core does nothing. -/
def Obligations.HeldResetExecutesNothing : Prop :=
  (∀ s : State, s.nextMove = .holdReset → step s = .next { s with host := s.host.tail, inReset := true }) ∧
  (∀ s : State, s.inReset = true → (∀ image, s.nextMove ≠ .releaseReset image) →
    step s = .next { s with host := s.host.tail })

/-- The state after reset has the values of R32 for an image whose length is a multiple of 4 and the default sizes of R6;
that its image is empty and its host silent are choices of the model (log 2, log 7). -/
def Obligations.ResetStateValues : Prop :=
  (∀ r, State.reset.reg r = 0#32) ∧ State.reset.pc = 0 ∧ State.reset.sp = 0 ∧ State.reset.run = .running ∧
  State.reset.cause = .none ∧ State.reset.warn.bits = 0 ∧ State.reset.memCap = 2048 ∧ State.reset.stackCap = 512 ∧
  State.reset.rom = [] ∧ State.reset.host = []

/-! ### The whole machine -/

/-- The invariant holds right after reset. -/
def Obligations.ResetMeetsInvariant : Prop := MachineInv State.reset

/-- The invariant holds at every release of reset, whatever the image and whatever came before. -/
def Obligations.ReleaseMeetsInvariant : Prop :=
  ∀ (s : State) (image : List Word), 1 ≤ s.memCap → 1 ≤ s.stackCap → MachineInv (releaseReset image s)

/-- Every step keeps the invariant: memory canonical and inside its capacity, the stack pointer in range with every
occupied slot written, `pc` a multiple of 4 that has not passed the end, a cause exactly in FAULTED, IMAGE_LENGTH
exactly for a bad image (R17, R20 to R22, R26, R33, R37, R38, R97). -/
def Obligations.StepKeepsInvariant : Prop := ∀ s t : State, MachineInv s → step s = .next t → MachineInv t

/-- Who writes what (R13, R15, R21, R23, R85): a register changes only as the destination the instruction names; only
STO changes RAM; only PUSH changes a stack slot; only PUSH and POP change the stack pointer, by one. -/
def Obligations.OnlyNamedWriters : Prop :=
  ∀ (i : Instr) (s t : State), exec i s = .next t →
    (∀ q, t.reg q ≠ s.reg q → ∃ rd, destOf i = some rd ∧ rd.toInt = q.index) ∧
    ((∀ addr val flag, i ≠ .sto addr val flag) → RamKept s t) ∧
    ((∀ val flag, i ≠ .push val flag) → SlotsKept s t) ∧
    (t.sp ≠ s.sp → (∃ val flag, i = .push val flag ∧ t.sp = s.sp + 1) ∨ (∃ rd, i = .pop rd ∧ t.sp + 1 = s.sp))

/-- R48: the program image is never written during a run: no step changes ROM but a release of reset, and no step at all
changes the sizes, which are build-time parameters. -/
def Obligations.RomNeverChangesDuringRun : Prop :=
  ∀ s t : State, step s = .next t →
    ((∀ image, s.nextMove ≠ .releaseReset image) → t.rom = s.rom) ∧ t.memCap = s.memCap ∧ t.stackCap = s.stackCap

/-- Stale stack contents are unobservable (10_state.md, which derives it from R20, R82 and R83): two states that differ
at most in slots at or above the stack pointer step to two states that do, so nothing a program or the host reads ever
depends on such a slot. -/
def Obligations.StaleStackIsInvisible : Prop :=
  ∀ s t s' t' : State, SameButStale s t → step s = .next s' → step t = .next t' → SameButStale s' t'

/-- Bounded running time (45_dispatch.md and 70_reset_and_hazards.md, which derive it from R18, R96 and R101): unless the
host resets, the core has left RUNNING after one step more than there are instructions left in the image. -/
def Obligations.RunsStopInBoundedTime : Prop :=
  ∀ s : State, HostNeverResets s → s.inReset = false →
    ∃ t, core.run ((s.rom.length - s.pc) / 4 + 1) s = .next t ∧ t.run ≠ .running

/-- PCW and SPW, the widths of `pc` and `sp` (R6; the spec derives them from R17 and R20): each is the smallest width of
at least 1 bit that holds ROM_LEN or STACK_CAP, SPW is 10 at the default size, and in every state that meets the
invariant the registers fit, so that the bits the host reads are the whole of them. That the model computes with the
numbers and not with the bits is its choice (log 12). -/
def Obligations.PcAndSpFitTheirWidths : Prop :=
  (∀ s : State, 1 ≤ s.pcw ∧ s.rom.length < 2 ^ s.pcw ∧ (∀ k, 1 ≤ k → s.rom.length < 2 ^ k → s.pcw ≤ k) ∧
    1 ≤ s.spw ∧ s.stackCap < 2 ^ s.spw ∧ (∀ k, 1 ≤ k → s.stackCap < 2 ^ k → s.spw ≤ k)) ∧
  widthFor Config.defaultStackCap = 10 ∧
  ∀ s : State, MachineInv s → s.hostView.pc.toNat = s.pc ∧ s.hostView.sp.toNat = s.sp
end

