-- ==== Sys2Proof/Laws/State.lean ====
section
/-! SUPPORT. One lemma per field per state update, so that no later proof unfolds an update; then what each update
does to the reads built on the fields (registers, RAM words, stack slots, addresses, operands). -/
namespace Sys2Proof.Machine

@[simp] theorem State.setReg_x (s : State) (r : Reg) (v : Word) : (s.setReg r v).x = s.x.set r v := rfl
@[simp] theorem State.setReg_pc (s : State) (r : Reg) (v : Word) : (s.setReg r v).pc = s.pc := rfl
@[simp] theorem State.setReg_sp (s : State) (r : Reg) (v : Word) : (s.setReg r v).sp = s.sp := rfl
@[simp] theorem State.setReg_stk (s : State) (r : Reg) (v : Word) : (s.setReg r v).stk = s.stk := rfl
@[simp] theorem State.setReg_mem (s : State) (r : Reg) (v : Word) : (s.setReg r v).mem = s.mem := rfl
@[simp] theorem State.setReg_run (s : State) (r : Reg) (v : Word) : (s.setReg r v).run = s.run := rfl
@[simp] theorem State.setReg_cause (s : State) (r : Reg) (v : Word) : (s.setReg r v).cause = s.cause := rfl
@[simp] theorem State.setReg_warn (s : State) (r : Reg) (v : Word) : (s.setReg r v).warn = s.warn := rfl
@[simp] theorem State.setReg_rom (s : State) (r : Reg) (v : Word) : (s.setReg r v).rom = s.rom := rfl
@[simp] theorem State.setReg_memCap (s : State) (r : Reg) (v : Word) : (s.setReg r v).memCap = s.memCap := rfl
@[simp] theorem State.setReg_stackCap (s : State) (r : Reg) (v : Word) : (s.setReg r v).stackCap = s.stackCap := rfl
@[simp] theorem State.setReg_inReset (s : State) (r : Reg) (v : Word) : (s.setReg r v).inReset = s.inReset := rfl
@[simp] theorem State.setReg_host (s : State) (r : Reg) (v : Word) : (s.setReg r v).host = s.host := rfl
@[simp] theorem State.setReg_launchNo (s : State) (r : Reg) (v : Word) : (s.setReg r v).launchNo = s.launchNo := rfl

@[simp] theorem ramStore_x (s : State) (a : Nat) (v : Word) : (ramStore s a v).x = s.x := rfl
@[simp] theorem ramStore_pc (s : State) (a : Nat) (v : Word) : (ramStore s a v).pc = s.pc := rfl
@[simp] theorem ramStore_sp (s : State) (a : Nat) (v : Word) : (ramStore s a v).sp = s.sp := rfl
@[simp] theorem ramStore_stk (s : State) (a : Nat) (v : Word) : (ramStore s a v).stk = s.stk := rfl
@[simp] theorem ramStore_mem (s : State) (a : Nat) (v : Word) : (ramStore s a v).mem = Memory.write s.mem a v := rfl
@[simp] theorem ramStore_run (s : State) (a : Nat) (v : Word) : (ramStore s a v).run = s.run := rfl
@[simp] theorem ramStore_cause (s : State) (a : Nat) (v : Word) : (ramStore s a v).cause = s.cause := rfl
@[simp] theorem ramStore_warn (s : State) (a : Nat) (v : Word) : (ramStore s a v).warn = s.warn := rfl
@[simp] theorem ramStore_rom (s : State) (a : Nat) (v : Word) : (ramStore s a v).rom = s.rom := rfl
@[simp] theorem ramStore_memCap (s : State) (a : Nat) (v : Word) : (ramStore s a v).memCap = s.memCap := rfl
@[simp] theorem ramStore_stackCap (s : State) (a : Nat) (v : Word) : (ramStore s a v).stackCap = s.stackCap := rfl
@[simp] theorem ramStore_inReset (s : State) (a : Nat) (v : Word) : (ramStore s a v).inReset = s.inReset := rfl
@[simp] theorem ramStore_host (s : State) (a : Nat) (v : Word) : (ramStore s a v).host = s.host := rfl
@[simp] theorem ramStore_launchNo (s : State) (a : Nat) (v : Word) : (ramStore s a v).launchNo = s.launchNo := rfl

@[simp] theorem pushWord_x (s : State) (v : Word) : (pushWord s v).x = s.x := rfl
@[simp] theorem pushWord_pc (s : State) (v : Word) : (pushWord s v).pc = s.pc := rfl
@[simp] theorem pushWord_sp (s : State) (v : Word) : (pushWord s v).sp = s.sp + 1 := rfl
@[simp] theorem pushWord_stk (s : State) (v : Word) : (pushWord s v).stk = Memory.write s.stk s.sp v := rfl
@[simp] theorem pushWord_mem (s : State) (v : Word) : (pushWord s v).mem = s.mem := rfl
@[simp] theorem pushWord_run (s : State) (v : Word) : (pushWord s v).run = s.run := rfl
@[simp] theorem pushWord_cause (s : State) (v : Word) : (pushWord s v).cause = s.cause := rfl
@[simp] theorem pushWord_warn (s : State) (v : Word) : (pushWord s v).warn = s.warn := rfl
@[simp] theorem pushWord_rom (s : State) (v : Word) : (pushWord s v).rom = s.rom := rfl
@[simp] theorem pushWord_memCap (s : State) (v : Word) : (pushWord s v).memCap = s.memCap := rfl
@[simp] theorem pushWord_stackCap (s : State) (v : Word) : (pushWord s v).stackCap = s.stackCap := rfl
@[simp] theorem pushWord_inReset (s : State) (v : Word) : (pushWord s v).inReset = s.inReset := rfl
@[simp] theorem pushWord_host (s : State) (v : Word) : (pushWord s v).host = s.host := rfl
@[simp] theorem pushWord_launchNo (s : State) (v : Word) : (pushWord s v).launchNo = s.launchNo := rfl

@[simp] theorem dropTop_x (s : State) : (dropTop s).x = s.x := rfl
@[simp] theorem dropTop_pc (s : State) : (dropTop s).pc = s.pc := rfl
@[simp] theorem dropTop_sp (s : State) : (dropTop s).sp = s.sp - 1 := rfl
@[simp] theorem dropTop_stk (s : State) : (dropTop s).stk = s.stk := rfl
@[simp] theorem dropTop_mem (s : State) : (dropTop s).mem = s.mem := rfl
@[simp] theorem dropTop_run (s : State) : (dropTop s).run = s.run := rfl
@[simp] theorem dropTop_cause (s : State) : (dropTop s).cause = s.cause := rfl
@[simp] theorem dropTop_warn (s : State) : (dropTop s).warn = s.warn := rfl
@[simp] theorem dropTop_rom (s : State) : (dropTop s).rom = s.rom := rfl
@[simp] theorem dropTop_memCap (s : State) : (dropTop s).memCap = s.memCap := rfl
@[simp] theorem dropTop_stackCap (s : State) : (dropTop s).stackCap = s.stackCap := rfl
@[simp] theorem dropTop_inReset (s : State) : (dropTop s).inReset = s.inReset := rfl
@[simp] theorem dropTop_host (s : State) : (dropTop s).host = s.host := rfl
@[simp] theorem dropTop_launchNo (s : State) : (dropTop s).launchNo = s.launchNo := rfl

@[simp] theorem complete_x (s : State) (d : Bool) : (complete s d).x = s.x := rfl
@[simp] theorem complete_pc (s : State) (d : Bool) : (complete s d).pc = s.pc + 4 := rfl
@[simp] theorem complete_sp (s : State) (d : Bool) : (complete s d).sp = s.sp := rfl
@[simp] theorem complete_stk (s : State) (d : Bool) : (complete s d).stk = s.stk := rfl
@[simp] theorem complete_mem (s : State) (d : Bool) : (complete s d).mem = s.mem := rfl
@[simp] theorem complete_run (s : State) (d : Bool) : (complete s d).run = s.run := rfl
@[simp] theorem complete_cause (s : State) (d : Bool) : (complete s d).cause = s.cause := rfl
@[simp] theorem complete_warn (s : State) (d : Bool) : (complete s d).warn = s.warn.noteDefaulted d := rfl
@[simp] theorem complete_rom (s : State) (d : Bool) : (complete s d).rom = s.rom := rfl
@[simp] theorem complete_memCap (s : State) (d : Bool) : (complete s d).memCap = s.memCap := rfl
@[simp] theorem complete_stackCap (s : State) (d : Bool) : (complete s d).stackCap = s.stackCap := rfl
@[simp] theorem complete_inReset (s : State) (d : Bool) : (complete s d).inReset = s.inReset := rfl
@[simp] theorem complete_host (s : State) (d : Bool) : (complete s d).host = s.host := rfl
@[simp] theorem complete_launchNo (s : State) (d : Bool) : (complete s d).launchNo = s.launchNo := rfl

@[simp] theorem takeFault_x (c : Cause) (s : State) : (takeFault c s).x = s.x := rfl
@[simp] theorem takeFault_pc (c : Cause) (s : State) : (takeFault c s).pc = s.pc := rfl
@[simp] theorem takeFault_sp (c : Cause) (s : State) : (takeFault c s).sp = s.sp := rfl
@[simp] theorem takeFault_stk (c : Cause) (s : State) : (takeFault c s).stk = s.stk := rfl
@[simp] theorem takeFault_mem (c : Cause) (s : State) : (takeFault c s).mem = s.mem := rfl
@[simp] theorem takeFault_run (c : Cause) (s : State) : (takeFault c s).run = .faulted := rfl
@[simp] theorem takeFault_cause (c : Cause) (s : State) : (takeFault c s).cause = c := rfl
@[simp] theorem takeFault_warn (c : Cause) (s : State) : (takeFault c s).warn = s.warn := rfl
@[simp] theorem takeFault_rom (c : Cause) (s : State) : (takeFault c s).rom = s.rom := rfl
@[simp] theorem takeFault_memCap (c : Cause) (s : State) : (takeFault c s).memCap = s.memCap := rfl
@[simp] theorem takeFault_stackCap (c : Cause) (s : State) : (takeFault c s).stackCap = s.stackCap := rfl
@[simp] theorem takeFault_inReset (c : Cause) (s : State) : (takeFault c s).inReset = s.inReset := rfl
@[simp] theorem takeFault_host (c : Cause) (s : State) : (takeFault c s).host = s.host := rfl
@[simp] theorem takeFault_launchNo (c : Cause) (s : State) : (takeFault c s).launchNo = s.launchNo := rfl

@[simp] theorem State.consumeMove_x (s : State) : (s.consumeMove).x = s.x := rfl
@[simp] theorem State.consumeMove_pc (s : State) : (s.consumeMove).pc = s.pc := rfl
@[simp] theorem State.consumeMove_sp (s : State) : (s.consumeMove).sp = s.sp := rfl
@[simp] theorem State.consumeMove_stk (s : State) : (s.consumeMove).stk = s.stk := rfl
@[simp] theorem State.consumeMove_mem (s : State) : (s.consumeMove).mem = s.mem := rfl
@[simp] theorem State.consumeMove_run (s : State) : (s.consumeMove).run = s.run := rfl
@[simp] theorem State.consumeMove_cause (s : State) : (s.consumeMove).cause = s.cause := rfl
@[simp] theorem State.consumeMove_warn (s : State) : (s.consumeMove).warn = s.warn := rfl
@[simp] theorem State.consumeMove_rom (s : State) : (s.consumeMove).rom = s.rom := rfl
@[simp] theorem State.consumeMove_memCap (s : State) : (s.consumeMove).memCap = s.memCap := rfl
@[simp] theorem State.consumeMove_stackCap (s : State) : (s.consumeMove).stackCap = s.stackCap := rfl
@[simp] theorem State.consumeMove_inReset (s : State) : (s.consumeMove).inReset = s.inReset := rfl
@[simp] theorem State.consumeMove_host (s : State) : (s.consumeMove).host = s.host.tail := rfl
@[simp] theorem State.consumeMove_launchNo (s : State) : (s.consumeMove).launchNo = s.launchNo := rfl

/-! ### Registers -/

theorem Regs.get_set (x : Regs) (r q : Reg) (v : Word) : (x.set r v).get q = if q = r then v else x.get q := by
  cases r <;> cases q <;> rfl

@[simp] theorem reg_setReg_self (s : State) (r : Reg) (v : Word) : (s.setReg r v).reg r = v := by
  cases r <;> rfl

theorem reg_setReg_other (s : State) {r q : Reg} (v : Word) (h : q ≠ r) : (s.setReg r v).reg q = s.reg q := by
  simp [State.reg, Regs.get_set, h]

theorem Reg.index_le_three (r : Reg) : r.index ≤ 3 := by
  cases r <;> decide

theorem Reg.index_inj {r q : Reg} (h : r.index = q.index) : r = q := by
  cases r <;> cases q <;> simp_all [Reg.index]

@[simp] theorem reg_ramStore (s : State) (a : Nat) (v : Word) (q : Reg) : (ramStore s a v).reg q = s.reg q := rfl
@[simp] theorem reg_pushWord (s : State) (v : Word) (q : Reg) : (pushWord s v).reg q = s.reg q := rfl
@[simp] theorem reg_dropTop (s : State) (q : Reg) : (dropTop s).reg q = s.reg q := rfl
@[simp] theorem reg_complete (s : State) (d : Bool) (q : Reg) : (complete s d).reg q = s.reg q := rfl
@[simp] theorem reg_takeFault (c : Cause) (s : State) (q : Reg) : (takeFault c s).reg q = s.reg q := rfl
@[simp] theorem reg_consumeMove (s : State) (q : Reg) : (s.consumeMove).reg q = s.reg q := rfl

/-! ### RAM words and addresses -/

@[simp] theorem ramWord_setReg (s : State) (r : Reg) (v : Word) (a : Nat) : ramWord (s.setReg r v) a = ramWord s a := rfl
@[simp] theorem ramWord_pushWord (s : State) (v : Word) (a : Nat) : ramWord (pushWord s v) a = ramWord s a := rfl
@[simp] theorem ramWord_dropTop (s : State) (a : Nat) : ramWord (dropTop s) a = ramWord s a := rfl
@[simp] theorem ramWord_complete (s : State) (d : Bool) (a : Nat) : ramWord (complete s d) a = ramWord s a := rfl
@[simp] theorem ramWord_takeFault (c : Cause) (s : State) (a : Nat) : ramWord (takeFault c s) a = ramWord s a := rfl
@[simp] theorem ramWord_consumeMove (s : State) (a : Nat) : ramWord (s.consumeMove) a = ramWord s a := rfl
@[simp] theorem ramAddr?_setReg (s : State) (r : Reg) (v : Word) (w : Word) : ramAddr? (s.setReg r v) w = ramAddr? s w := rfl
@[simp] theorem ramAddr?_ramStore (s : State) (a : Nat) (v : Word) (w : Word) : ramAddr? (ramStore s a v) w = ramAddr? s w := rfl
@[simp] theorem ramAddr?_pushWord (s : State) (v : Word) (w : Word) : ramAddr? (pushWord s v) w = ramAddr? s w := rfl
@[simp] theorem ramAddr?_dropTop (s : State) (w : Word) : ramAddr? (dropTop s) w = ramAddr? s w := rfl
@[simp] theorem ramAddr?_complete (s : State) (d : Bool) (w : Word) : ramAddr? (complete s d) w = ramAddr? s w := rfl
@[simp] theorem ramAddr?_takeFault (c : Cause) (s : State) (w : Word) : ramAddr? (takeFault c s) w = ramAddr? s w := rfl
@[simp] theorem ramAddr?_consumeMove (s : State) (w : Word) : ramAddr? (s.consumeMove) w = ramAddr? s w := rfl

/-! ### Stack slots -/

@[simp] theorem stackWord_setReg (s : State) (r : Reg) (v : Word) (i : Nat) : stackWord (s.setReg r v) i = stackWord s i := rfl
@[simp] theorem stackWord_ramStore (s : State) (a : Nat) (v : Word) (i : Nat) : stackWord (ramStore s a v) i = stackWord s i := rfl
@[simp] theorem stackWord_dropTop (s : State) (i : Nat) : stackWord (dropTop s) i = stackWord s i := rfl
@[simp] theorem stackWord_complete (s : State) (d : Bool) (i : Nat) : stackWord (complete s d) i = stackWord s i := rfl
@[simp] theorem stackWord_takeFault (c : Cause) (s : State) (i : Nat) : stackWord (takeFault c s) i = stackWord s i := rfl
@[simp] theorem stackWord_consumeMove (s : State) (i : Nat) : stackWord (s.consumeMove) i = stackWord s i := rfl

/-! ### The widths of `pc` and `sp` -/

theorem widthFor_pos (n : Nat) : 1 ≤ widthFor n := Nat.le_add_left ..
theorem lt_two_pow_widthFor (n : Nat) : n < 2 ^ widthFor n := Nat.lt_log2_self
@[simp] theorem State.pcBits_toNat (s : State) : s.pcBits.toNat = s.pc % 2 ^ s.pcw := BitVec.toNat_ofNat ..
@[simp] theorem State.spBits_toNat (s : State) : s.spBits.toNat = s.sp % 2 ^ s.spw := BitVec.toNat_ofNat ..

/-! ### The warning bits -/

@[simp] theorem Warn.noteDefaulted_unkOpcode (w : Warn) (d : Bool) : (w.noteDefaulted d).unkOpcode = w.unkOpcode := rfl
@[simp] theorem Warn.noteDefaulted_regDefaulted (w : Warn) (d : Bool) :
    (w.noteDefaulted d).regDefaulted = (w.regDefaulted || d) := rfl
@[simp] theorem Warn.noteDefaulted_false (w : Warn) : w.noteDefaulted false = w := by
  simp [Warn.noteDefaulted]
@[simp] theorem Warn.noteUnknown_unkOpcode (w : Warn) : w.noteUnknown.unkOpcode = true := rfl
@[simp] theorem Warn.noteUnknown_regDefaulted (w : Warn) : w.noteUnknown.regDefaulted = w.regDefaulted := rfl

end Sys2Proof.Machine
end

