-- ==== Sys2Proof/Laws/Memory.lean ====
section
/-! SUPPORT. The laws of the word arrays: read after write, the canonical form, and the addresses listed. -/
namespace Sys2Proof.Machine

theorem Memory.read_write_self (m : Memory) (a : Nat) (v : Word) : Memory.read (Memory.write m a v) a = some v := by
  induction m with
  | nil => simp [Memory.write, Memory.read]
  | cons c m ih =>
    simp only [Memory.write]
    split
    · simp [Memory.read]
    · split
      · simp [Memory.read]
      · rename_i hne
        simp [Memory.read, ih, Ne.symm hne]

theorem Memory.read_write_other (m : Memory) {a b : Nat} (v : Word) (h : b ≠ a) :
    Memory.read (Memory.write m a v) b = Memory.read m b := by
  induction m with
  | nil => simp [Memory.write, Memory.read, h.symm]
  | cons c m ih =>
    simp only [Memory.write]
    split
    · simp [Memory.read, h.symm]
    · split
      · rename_i heq
        simp [Memory.read, h.symm, ← heq]
      · simp [Memory.read, ih]

/-- The addresses a write lists: the one written, and those listed before. -/
theorem Memory.mem_write {m : Memory} {a : Nat} {v : Word} {c : Nat × Word} (h : c ∈ Memory.write m a v) :
    c = (a, v) ∨ c ∈ m := by
  induction m with
  | nil => simpa [Memory.write] using h
  | cons d m ih =>
    simp only [Memory.write] at h
    split at h
    · simpa using h
    · split at h
      · rcases List.mem_cons.1 h with h | h
        · exact .inl h
        · exact .inr (List.mem_cons_of_mem _ h)
      · rcases List.mem_cons.1 h with h | h
        · exact .inr (h ▸ List.mem_cons_self ..)
        · exact (ih h).imp id (List.mem_cons_of_mem _)

/-- Every memory operation keeps the canonical form. -/
theorem Memory.write_wf {m : Memory} (a : Nat) (v : Word) (h : Memory.wf m) : Memory.wf (Memory.write m a v) := by
  induction m with
  | nil => simp [Memory.write]
  | cons c m ih =>
    obtain ⟨hc, hm⟩ := List.pairwise_cons.1 h
    simp only [Memory.write]
    split
    · rename_i hlt
      refine List.pairwise_cons.2 ⟨?_, h⟩
      intro d hd
      rcases List.mem_cons.1 hd with hd | hd
      · simpa [hd] using hlt
      · exact Nat.lt_trans hlt (hc d hd)
    · split
      · rename_i heq
        exact List.pairwise_cons.2 ⟨fun d hd => by simpa [heq] using hc d hd, hm⟩
      · rename_i hlt hne
        refine List.pairwise_cons.2 ⟨?_, ih hm⟩
        intro d hd
        rcases Memory.mem_write hd with hd | hd
        · subst hd
          show c.1 < a
          omega
        · exact hc d hd

theorem Memory.write_inside {m : Memory} {a n : Nat} (v : Word) (ha : a < n) (h : ∀ c ∈ m, c.1 < n) :
    ∀ c ∈ Memory.write m a v, c.1 < n := by
  intro c hc
  rcases Memory.mem_write hc with hc | hc
  · simpa [hc] using ha
  · exact h c hc

theorem Memory.isSome_read_write (m : Memory) (a b : Nat) (v : Word) (h : b = a ∨ (Memory.read m b).isSome) :
    (Memory.read (Memory.write m a v) b).isSome := by
  by_cases hb : b = a
  · simp [hb, Memory.read_write_self]
  · simpa [Memory.read_write_other m v hb] using h.resolve_left hb

theorem reset_ram_wf : Memory.wf State.reset.mem := List.Pairwise.nil

theorem reset_stk_wf : Memory.wf State.reset.stk := List.Pairwise.nil

/-! ### RAM words and stack slots after a write (R43, R82) -/

@[simp] theorem ramWord_ramStore_self (s : State) (a : Nat) (v : Word) : ramWord (ramStore s a v) a = v := by
  simp [ramWord, Memory.read_write_self]

theorem ramWord_ramStore_other (s : State) {a b : Nat} (v : Word) (h : b ≠ a) :
    ramWord (ramStore s a v) b = ramWord s b := by
  simp [ramWord, Memory.read_write_other _ v h]

@[simp] theorem stackWord_pushWord_self (s : State) (v : Word) : stackWord (pushWord s v) s.sp = v := by
  simp [stackWord, Memory.read_write_self]

theorem stackWord_pushWord_other (s : State) (v : Word) {i : Nat} (h : i ≠ s.sp) :
    stackWord (pushWord s v) i = stackWord s i := by
  simp [stackWord, Memory.read_write_other _ v h]

end Sys2Proof.Machine
end

