-- ==== Sys2Proof/Laws/Operands.lean ====
section
/-! SUPPORT. The operand services: which words name a register, how the two checks answer, and what the resolver
depends on. -/
namespace Sys2Proof.Machine

theorem regOf?_index {id : Word} {r : Reg} (h : regOf? id = some r) : id.toInt = r.index := by
  unfold regOf? at h
  repeat' split at h
  all_goals first
    | (cases h; subst id; decide)
    | cases h

theorem regOf?_of_index {id : Word} {r : Reg} (h : id.toInt = r.index) : regOf? id = some r := by
  have hid : id = BitVec.ofInt 32 r.index := by rw [← h, BitVec.ofInt_toInt]
  subst hid
  cases r <;> decide

theorem idOutOfRange_iff {id : Word} : IdOutOfRange id ↔ regOf? id = none := by
  constructor
  · intro h
    cases hr : regOf? id with
    | none => rfl
    | some r =>
      have h1 := regOf?_index hr
      have h2 := r.index_le_three
      simp only [IdOutOfRange] at h
      omega
  · intro h
    by_contra hc
    simp only [IdOutOfRange, not_or, not_lt] at hc
    have key : ∃ r : Reg, id.toInt = r.index := by
      have h4 : id.toInt = 0 ∨ id.toInt = 1 ∨ id.toInt = 2 ∨ id.toInt = 3 := by omega
      rcases h4 with h | h | h | h
      · exact ⟨.x0, h⟩
      · exact ⟨.x1, h⟩
      · exact ⟨.x2, h⟩
      · exact ⟨.x3, h⟩
    obtain ⟨r, hr⟩ := key
    simp [regOf?_of_index hr] at h

/-- The destination check, out of range: REG_INDEX, whatever the rest of the instruction is. -/
theorem withDest_out {rd : Word} {s : State} {body : Reg → Result} (h : IdOutOfRange rd) :
    withDest rd s body = .next (takeFault .regIndex s) := by
  simp [withDest, idOutOfRange_iff.1 h]

/-- The destination check, in range: the instruction goes on with the register named. -/
theorem withDest_in {rd : Word} {s : State} {body : Reg → Result} {r : Reg} (h : rd.toInt = r.index) :
    withDest rd s body = body r := by
  simp [withDest, regOf?_of_index h]

/-- Every destination id falls under one of the two cases. -/
theorem id_cases (rd : Word) : IdOutOfRange rd ∨ ∃ r : Reg, rd.toInt = r.index := by
  cases h : regOf? rd with
  | none => exact .inl (idOutOfRange_iff.2 h)
  | some r => exact .inr ⟨r, regOf?_index h⟩

theorem not_idOutOfRange {rd : Word} {r : Reg} (h : rd.toInt = r.index) : ¬ IdOutOfRange rd := by
  have := r.index_le_three
  simp only [IdOutOfRange]
  omega

theorem withRamAddr_out {addr : Word} {s : State} {body : Nat → Result} (h : AddrOutOfBounds s addr) :
    withRamAddr addr s body = .next (takeFault .memBounds s) := by
  have : ¬ (0 ≤ addr.toInt ∧ addr.toInt < s.memCap) := by
    simp only [AddrOutOfBounds] at h
    omega
  simp [withRamAddr, ramAddr?, this]

theorem withRamAddr_in {addr : Word} {s : State} {body : Nat → Result} (h0 : 0 ≤ addr.toInt)
    (h1 : addr.toInt < s.memCap) : withRamAddr addr s body = body addr.toInt.toNat := by
  simp [withRamAddr, ramAddr?, h0, h1]

theorem addr_cases (s : State) (addr : Word) :
    AddrOutOfBounds s addr ∨ (0 ≤ addr.toInt ∧ addr.toInt < s.memCap) := by
  simp only [AddrOutOfBounds]
  omega

/-- The resolver depends on the register file alone. -/
theorem resolve_congr {s t : State} (h : t.x = s.x) (raw flag : Word) : resolve t raw flag = resolve s raw flag := by
  simp [resolve, regRead, State.reg, h]

/-- An immediate never defaults. -/
@[simp] theorem resolve_imm (s : State) (raw : Word) : resolve s raw 0#32 = ⟨raw, false⟩ := rfl

/-- Fault entry, in the terms claims use. -/
theorem faultEntered_takeFault (c : Cause) (s : State) : FaultEntered c s (takeFault c s) :=
  ⟨rfl, rfl, rfl, rfl, fun _ => rfl, fun _ => rfl, ⟨rfl, fun _ => rfl⟩, ⟨rfl, rfl, rfl, rfl, rfl, rfl⟩⟩

end Sys2Proof.Machine
end

