-- ==== Sys2Proof/Laws/Alu.lean ====
section
/-! SUPPORT. The arithmetic of R9 and R79 to R81 as the model computes it, and what the common ALU shape (R70)
answers. -/
namespace Sys2Proof.Machine

/-- The model's `wrap` is the spec's (R9). -/
theorem isWrap_wrap (v : Int) : IsWrap v (wrap v).toInt := by
  have h : (wrap v).toInt = v.bmod (2 ^ 32) := by simp [wrap, BitVec.toInt_ofInt]
  refine ⟨?_, ?_, ?_⟩
  · have := @Int.le_bmod v (2 ^ 32) (by decide)
    rw [h]
    omega
  · have := @Int.bmod_lt v (2 ^ 32) (by decide)
    rw [h]
    omega
  · rw [h]
    exact Int.dvd_self_sub_bmod

/-- Wrapping leaves one integer only. -/
theorem IsWrap.unique {v p q : Int} (hp : IsWrap v p) (hq : IsWrap v q) : p = q := by
  obtain ⟨hp0, hp1, kp, hkp⟩ := hp
  obtain ⟨hq0, hq1, kq, hkq⟩ := hq
  omega

/-- `tdiv` of R9 is Lean's division rounded toward zero. -/
theorem specTdiv_eq (a b : Int) : specTdiv a b = a.tdiv b := by
  rw [← Int.sign_mul_natAbs (a.tdiv b), Int.sign_tdiv, Int.natAbs_tdiv, specTdiv]
  split
  · rename_i h
    rw [Nat.div_eq_of_lt h]
    simp
  · rfl

theorem aluDiv_zero (a : Word) : aluDiv a 0#32 = .error .divZero := by
  simp [aluDiv]

theorem aluDiv_ok {v : Word} (a : Word) (h : v ≠ 0#32) : aluDiv a v = .ok (wrap (a.toInt.tdiv v.toInt)) := by
  simp [aluDiv, h]

section shape
variable {op : Word → Word → Except Cause Word} {rd val flag : Word} {s : State}

theorem aluInstr_out (h : IdOutOfRange rd) : aluInstr op rd val flag s = .next (takeFault .regIndex s) :=
  withDest_out h

theorem aluInstr_ok {r : Reg} {y : Word} (hr : rd.toInt = r.index)
    (hy : op (s.reg r) (resolve s val flag).value = .ok y) :
    aluInstr op rd val flag s = .next (complete (s.setReg r y) (resolve s val flag).defaulted) := by
  simp [aluInstr, withDest_in hr, hy]

theorem aluInstr_error {r : Reg} {c : Cause} (hr : rd.toInt = r.index)
    (hc : op (s.reg r) (resolve s val flag).value = .error c) :
    aluInstr op rd val flag s = .next (takeFault c s) := by
  simp [aluInstr, withDest_in hr, hc]

end shape

end Sys2Proof.Machine
end

