-- ==== Sys2Proof/Laws/Decode.lean ====
section
/-! SUPPORT. What the decoder answers, by membership of the opcode word in the opcode map. -/
namespace Sys2Proof

/-- An opcode word outside the map decodes to UNDEF. -/
theorem decodeWords_undefined {w0 : Word} (h : w0 ∉ definedOpcodes) (w1 w2 w3 : Word) :
    decodeWords w0 w1 w2 w3 = .undef w0 := by
  unfold decodeWords
  iterate 15 rw [if_neg (fun e => h (by rw [e]; decide))]

theorem Instr.wellFormed_undef {op : Word} : (Instr.undef op).wellFormed = true ↔ op ∉ definedOpcodes := by
  simp only [Instr.wellFormed, Bool.not_eq_true', List.contains_eq_mem, decide_eq_false_iff_not]

/-- The opcode map, for a case split over the opcode words that are defined. -/
theorem mem_definedOpcodes {w : Word} : w ∈ definedOpcodes ↔
    w = 0#32 ∨ w = 1#32 ∨ w = 2#32 ∨ w = 3#32 ∨ w = 4#32 ∨ w = 5#32 ∨ w = 6#32 ∨ w = 7#32 ∨ w = 8#32 ∨ w = 9#32 ∨
      w = 10#32 ∨ w = 11#32 ∨ w = 12#32 ∨ w = 13#32 ∨ w = 255#32 := by
  simp only [definedOpcodes, List.mem_cons, List.not_mem_nil, or_false]

end Sys2Proof
end

