-- ==== Sys2Proof/Laws/Exec.lean ====
section
/-! SUPPORT. Everything an instruction can do, said once: it answers a next state, which is either the entry of a fault
whose condition holds or one of eight completed forms. -/
namespace Sys2Proof.Machine

/-- The forms of a completed instruction. -/
inductive Completes (i : Instr) (s : State) : State → Prop where
  /-- ALU instructions and GET: one register written. -/
  | writesReg (rd : Word) (r : Reg) (y : Word) (hd : destOf i = some rd) (hr : rd.toInt = r.index) :
      Completes i s (complete (s.setReg r y) (operandDefaults i s))
  | pops (rd : Word) (r : Reg) (hi : i = .pop rd) (hr : rd.toInt = r.index) (hsp : 0 < s.sp) :
      Completes i s (complete (dropTop (s.setReg r (stackWord s (s.sp - 1)))) false)
  | pushes (val flag : Word) (hi : i = .push val flag) (hsp : s.sp < s.stackCap) :
      Completes i s (complete (pushWord s (resolve s val flag).value) (resolve s val flag).defaulted)
  | stores (addr val flag : Word) (hi : i = .sto addr val flag) (h0 : 0 ≤ addr.toInt) (h1 : addr.toInt < s.memCap) :
      Completes i s (complete (ramStore s addr.toInt.toNat (resolve s val flag).value) (resolve s val flag).defaulted)
  | nothing (hi : i = .nop) : Completes i s (complete s false)
  | halts (hi : i = .hlt) : Completes i s { complete s false with run := .halted }
  | ends (hi : i = .end_) : Completes i s { complete s false with run := .terminated }
  | skips (op : Word) (hi : i = .undef op) : Completes i s { complete s false with warn := s.warn.noteUnknown }

/-- The faults an instruction raises, each with its condition (R119, R128). -/
inductive FaultsWith (i : Instr) (s : State) : Cause → Prop where
  | regIndex (rd : Word) (hd : destOf i = some rd) (h : IdOutOfRange rd) : FaultsWith i s .regIndex
  | divZero (rd val flag : Word) (hi : i = .div rd val flag) (hrd : ¬ IdOutOfRange rd)
      (hv : (resolve s val flag).value = 0#32) : FaultsWith i s .divZero
  | store (addr val flag : Word) (hi : i = .sto addr val flag) (h : AddrOutOfBounds s addr) : FaultsWith i s .memBounds
  | load (addr rd : Word) (hi : i = .get addr rd) (hrd : ¬ IdOutOfRange rd) (h : AddrOutOfBounds s addr) :
      FaultsWith i s .memBounds
  | overflow (val flag : Word) (hi : i = .push val flag) (h : s.stackCap ≤ s.sp) : FaultsWith i s .stackOverflow
  | underflow (rd : Word) (hi : i = .pop rd) (hrd : ¬ IdOutOfRange rd) (h : s.sp = 0) : FaultsWith i s .stackUnderflow

/-- What an instruction answers. -/
def Answers (i : Instr) (s t : State) : Prop := (∃ c, FaultsWith i s c ∧ t = takeFault c s) ∨ Completes i s t

/-- An instruction raises only the causes R119 gives it, and never NONE. -/
theorem FaultsWith.mem {i : Instr} {s : State} {c : Cause} (h : FaultsWith i s c) : c ∈ causesOf i ∧ c ≠ .none := by
  cases h with
  | regIndex rd hd _ => cases i <;> simp_all [destOf, causesOf]
  | _ => subst i; simp [causesOf]

/-- A completed instruction has not faulted. -/
theorem Completes.run_ne_faulted {i : Instr} {s t : State} (h : Completes i s t) (hr : s.run ≠ .faulted) :
    t.run ≠ .faulted := by
  cases h <;> first | exact hr | exact fun h => nomatch h

/-- A completed instruction has advanced (R18). -/
theorem Completes.pc_eq {i : Instr} {s t : State} (h : Completes i s t) : t.pc = s.pc + 4 := by
  cases h <;> rfl

/-- The ALU shape, for an operation whose faults are those of the instruction. -/
theorem aluInstr_answers {i : Instr} {op : Word → Word → Except Cause Word} {rd val flag : Word} (s : State)
    (hd : destOf i = some rd) (hp : resolverPair i = some (val, flag))
    (hop : ∀ a c, ¬ IdOutOfRange rd → op a (resolve s val flag).value = .error c → FaultsWith i s c) :
    ∃ t, aluInstr op rd val flag s = .next t ∧ Answers i s t := by
  rcases id_cases rd with h | ⟨r, hr⟩
  · exact ⟨_, aluInstr_out h, .inl ⟨_, .regIndex rd hd h, rfl⟩⟩
  · cases hy : op (s.reg r) (resolve s val flag).value with
    | error c => exact ⟨_, aluInstr_error hr hy, .inl ⟨c, hop _ _ (not_idOutOfRange hr) hy, rfl⟩⟩
    | ok y =>
      refine ⟨_, aluInstr_ok hr hy, .inr ?_⟩
      have := Completes.writesReg (i := i) (s := s) rd r y hd hr
      simpa only [operandDefaults, hp] using this

/-- The ALU shape, for an operation that raises nothing. -/
theorem aluPure_answers (i : Instr) (f : Word → Word → Word) {rd val flag : Word} (s : State)
    (hd : destOf i = some rd) (hp : resolverPair i = some (val, flag)) :
    ∃ t, aluInstr (fun a v => .ok (f a v)) rd val flag s = .next t ∧ Answers i s t :=
  aluInstr_answers s hd hp fun _ _ _ h => nomatch h

/-- Every instruction, in every state, answers a next state of one of the forms above: the model never stops. -/
theorem exec_answers (i : Instr) (s : State) : ∃ t, exec i s = .next t ∧ Answers i s t := by
  cases i with
  | nop => exact ⟨_, rfl, .inr (.nothing rfl)⟩
  | mov rd val flag =>
    exact aluPure_answers (.mov rd val flag) (fun _ v => v) s rfl rfl
  | add rd val flag =>
    exact aluPure_answers (.add rd val flag) aluAdd s rfl rfl
  | sub rd val flag =>
    exact aluPure_answers (.sub rd val flag) aluSub s rfl rfl
  | mul rd val flag =>
    exact aluPure_answers (.mul rd val flag) aluMul s rfl rfl
  | div rd val flag =>
    refine aluInstr_answers (i := .div rd val flag) (op := aluDiv) s rfl rfl ?_
    intro a c hrd h
    unfold aluDiv at h
    split at h <;> cases h
    exact .divZero rd val flag rfl hrd ‹_›
  | xor rd val flag =>
    exact aluPure_answers (.xor rd val flag) (· ^^^ ·) s rfl rfl
  | or rd val flag =>
    exact aluPure_answers (.or rd val flag) (· ||| ·) s rfl rfl
  | and rd val flag =>
    exact aluPure_answers (.and rd val flag) (· &&& ·) s rfl rfl
  | hlt => exact ⟨_, rfl, .inr (.halts rfl)⟩
  | push val flag =>
    by_cases h : s.stackCap ≤ s.sp
    · exact ⟨_, by simp only [exec, execPush, if_pos h], .inl ⟨_, .overflow val flag rfl h, rfl⟩⟩
    · exact ⟨_, by simp only [exec, execPush, if_neg h], .inr (.pushes val flag rfl (by omega))⟩
  | pop rd =>
    rcases id_cases rd with h | ⟨r, hr⟩
    · exact ⟨_, withDest_out h, .inl ⟨_, .regIndex rd rfl h, rfl⟩⟩
    · by_cases h : s.sp = 0
      · exact ⟨_, by simp only [exec, execPop, withDest_in hr, if_pos h], .inl ⟨_, .underflow rd rfl (not_idOutOfRange hr) h, rfl⟩⟩
      · exact ⟨_, by simp only [exec, execPop, withDest_in hr, if_neg h], .inr (.pops rd r rfl hr (by omega))⟩
  | sto addr val flag =>
    rcases addr_cases s addr with h | ⟨h0, h1⟩
    · exact ⟨_, withRamAddr_out h, .inl ⟨_, .store addr val flag rfl h, rfl⟩⟩
    · exact ⟨_, withRamAddr_in h0 h1, .inr (.stores addr val flag rfl h0 h1)⟩
  | get addr rd =>
    rcases id_cases rd with h | ⟨r, hr⟩
    · exact ⟨_, withDest_out h, .inl ⟨_, .regIndex rd rfl h, rfl⟩⟩
    · rcases addr_cases s addr with h | ⟨h0, h1⟩
      · exact ⟨_, by simp only [exec, execGet, withDest_in hr, withRamAddr_out h], .inl ⟨_, .load addr rd rfl (not_idOutOfRange hr) h, rfl⟩⟩
      · have := Completes.writesReg (i := .get addr rd) (s := s) rd r (ramWord s addr.toInt.toNat) rfl hr
        exact ⟨_, by simp only [exec, execGet, withDest_in hr, withRamAddr_in h0 h1]; rfl, .inr this⟩
  | end_ => exact ⟨_, rfl, .inr (.ends rfl)⟩
  | undef op => exact ⟨_, rfl, .inr (.skips op rfl)⟩

/-- The inversion: what a next state of an instruction can be. -/
theorem answers_of_exec {i : Instr} {s t : State} (h : exec i s = .next t) : Answers i s t := by
  obtain ⟨u, hu, ha⟩ := exec_answers i s
  rw [h] at hu
  cases hu
  exact ha

/-! ### What the memory instructions answer when they complete -/

theorem exec_push_below {s : State} {val flag : Word} (h : s.sp < s.stackCap) :
    exec (.push val flag) s =
      .next (complete (pushWord s (resolve s val flag).value) (resolve s val flag).defaulted) := by
  simp only [exec, execPush, if_neg (Nat.not_le.2 h)]

theorem exec_pop_nonempty {s : State} {rd : Word} {r : Reg} (hr : rd.toInt = r.index) (h : 0 < s.sp) :
    exec (.pop rd) s = .next (complete (dropTop (s.setReg r (stackWord s (s.sp - 1)))) false) := by
  simp only [exec, execPop, withDest_in hr, if_neg (Nat.pos_iff_ne_zero.1 h)]

theorem exec_sto_inside {s : State} {addr val flag : Word} (h0 : 0 ≤ addr.toInt) (h1 : addr.toInt < s.memCap) :
    exec (.sto addr val flag) s =
      .next (complete (ramStore s addr.toInt.toNat (resolve s val flag).value) (resolve s val flag).defaulted) :=
  withRamAddr_in h0 h1

theorem exec_get_inside {s : State} {addr rd : Word} {r : Reg} (hr : rd.toInt = r.index) (h0 : 0 ≤ addr.toInt)
    (h1 : addr.toInt < s.memCap) :
    exec (.get addr rd) s = .next (complete (s.setReg r (ramWord s addr.toInt.toNat)) false) := by
  simp only [exec, execGet, withDest_in hr, withRamAddr_in h0 h1]

/-! ### Runs of instructions -/

theorem execAll_cons {i : Instr} {s t : State} (h : exec i s = .next t) (is : List Instr) :
    execAll (i :: is) s = execAll is t := by
  simp only [execAll, h]

end Sys2Proof.Machine
end

