-- ==== Sys2Proof/Laws/PerInstr.lean ====
section
/-! SUPPORT. Statements made of every instruction, one lemma per constructor: an instruction is exactly four words,
and its opcode word comes first (R49, R50). -/
namespace Sys2Proof.Laws.FourWords

def Statement (i : Instr) : Prop := (encode i).length = 4 ∧ (encode i).head? = some i.opcode

theorem nop : Statement .nop := ⟨rfl, rfl⟩
theorem mov (rd val flag : Word) : Statement (.mov rd val flag) := ⟨rfl, rfl⟩
theorem add (rd val flag : Word) : Statement (.add rd val flag) := ⟨rfl, rfl⟩
theorem sub (rd val flag : Word) : Statement (.sub rd val flag) := ⟨rfl, rfl⟩
theorem mul (rd val flag : Word) : Statement (.mul rd val flag) := ⟨rfl, rfl⟩
theorem div (rd val flag : Word) : Statement (.div rd val flag) := ⟨rfl, rfl⟩
theorem xor (rd val flag : Word) : Statement (.xor rd val flag) := ⟨rfl, rfl⟩
theorem or (rd val flag : Word) : Statement (.or rd val flag) := ⟨rfl, rfl⟩
theorem and (rd val flag : Word) : Statement (.and rd val flag) := ⟨rfl, rfl⟩
theorem hlt : Statement .hlt := ⟨rfl, rfl⟩
theorem push (val flag : Word) : Statement (.push val flag) := ⟨rfl, rfl⟩
theorem pop (rd : Word) : Statement (.pop rd) := ⟨rfl, rfl⟩
theorem sto (addr val flag : Word) : Statement (.sto addr val flag) := ⟨rfl, rfl⟩
theorem get (addr rd : Word) : Statement (.get addr rd) := ⟨rfl, rfl⟩
theorem end_ : Statement .end_ := ⟨rfl, rfl⟩
theorem undef (opcode : Word) : Statement (.undef opcode) := ⟨rfl, rfl⟩

end Sys2Proof.Laws.FourWords
end

