-- ==== Sys2Proof/Laws/Step.lean ====
section
/-! SUPPORT. Everything a step can do, said once (R95, R101 to R104). -/
namespace Sys2Proof.Machine

@[simp] theorem nextMove_of_host_nil {s : State} (h : s.host = []) : s.nextMove = .idle := by
  simp [State.nextMove, h]

/-- The instruction at `pc`: the decoding of the four words the fetch unit reads. -/
def instrAt (s : State) : Instr :=
  decodeWords (romWord s s.pc) (romWord s (s.pc + 1)) (romWord s (s.pc + 2)) (romWord s (s.pc + 3))

theorem fetch_inside {s : State} (h : s.pc + 4 ≤ s.rom.length) :
    fetch s = some (romWord s s.pc, romWord s (s.pc + 1), romWord s (s.pc + 2), romWord s (s.pc + 3)) := by
  simp [fetch, h]

theorem fetch_past_end {s : State} (h : s.rom.length < s.pc + 4) : fetch s = none := by
  simp [fetch, Nat.not_le.2 h]

theorem sampleHost_executes {s : State} (h : Executes s) : sampleHost s = .go s.consumeMove := by
  simp [sampleHost, h.1, h.2.1, h.2.2]

theorem step_executes_inside {s : State} (h : Executes s) (hpc : s.pc + 4 ≤ s.rom.length) :
    step s = exec (instrAt s) s.consumeMove := by
  have hf : fetch s.consumeMove = _ := fetch_inside (s := s.consumeMove) hpc
  simp only [step, sampleHost_executes h, hf]
  rfl

theorem step_executes_past_end {s : State} (h : Executes s) (hpc : s.rom.length < s.pc + 4) :
    step s = .next (takeFault .fetchPastEnd s.consumeMove) := by
  have hf : fetch s.consumeMove = none := fetch_past_end (s := s.consumeMove) hpc
  simp only [step, sampleHost_executes h, hf]

theorem step_rest {s t : State} (h : sampleHost s = .rest t) : step s = .next t := by
  simp only [step, h]

/-- The forms of a step. -/
inductive Steps (s : State) : State → Prop where
  | resets (image : List Word) (hm : s.nextMove = .releaseReset image) : Steps s (releaseReset image s.consumeMove)
  | holds (hm : s.nextMove = .holdReset) : Steps s { s.consumeMove with inReset := true }
  | cancels (hm : s.nextMove = .cancel) : Steps s (takeCancel s.consumeMove)
  | stays (hm : s.nextMove = .idle) (hr : s.inReset = true ∨ s.run ≠ .running) : Steps s s.consumeMove
  | runsOut (he : Executes s) (hpc : s.rom.length < s.pc + 4) : Steps s (takeFault .fetchPastEnd s.consumeMove)
  | executes (t : State) (he : Executes s) (hpc : s.pc + 4 ≤ s.rom.length)
      (ha : Answers (instrAt s) s.consumeMove t) : Steps s t

theorem step_steps (s : State) : ∃ t, step s = .next t ∧ Steps s t := by
  cases hm : s.nextMove with
  | releaseReset image => exact ⟨_, step_rest (by simp only [sampleHost, hm]), .resets image hm⟩
  | holdReset => exact ⟨_, step_rest (by simp only [sampleHost, hm]), .holds hm⟩
  | cancel => exact ⟨_, step_rest (by simp only [sampleHost, hm]), .cancels hm⟩
  | idle =>
    by_cases hr : s.inReset = false ∧ s.run = .running
    · have he : Executes s := ⟨hm, hr⟩
      by_cases hpc : s.pc + 4 ≤ s.rom.length
      · obtain ⟨t, ht, ha⟩ := exec_answers (instrAt s) s.consumeMove
        exact ⟨t, (step_executes_inside he hpc).trans ht, .executes t he hpc ha⟩
      · exact ⟨_, step_executes_past_end he (Nat.not_le.1 hpc), .runsOut he (Nat.not_le.1 hpc)⟩
    · refine ⟨_, step_rest (by simp only [sampleHost, hm, if_neg hr]), .stays hm ?_⟩
      cases h : s.inReset <;> simp_all

/-- The inversion: what a next state of a step can be. -/
theorem steps_of_step {s t : State} (h : step s = .next t) : Steps s t := by
  obtain ⟨u, hu, hs⟩ := step_steps s
  rw [h] at hu
  cases hu
  exact hs

end Sys2Proof.Machine
end

