-- ==== Sys2Proof/Tests/Slice0.lean ====
section
/-! SUPPORT. Tests of single steps, with results copied from spec/95_test_vectors.md, and for every statement with
hypotheses a state and operands that meet them (`witness_<statement>`, one clause each at its boundary values). -/
namespace Sys2Proof.Tests
open Sys2Proof Sys2Proof.Machine

/-! ### Well-formedness (R57) -/

theorem test_wellFormed_refuses_undef_of_a_defined_opcode :
    (Instr.undef 1#32).wellFormed = false ∧ (Instr.undef 255#32).wellFormed = false := by decide

theorem test_wellFormed_accepts_undef_of_the_others :
    (Instr.undef 14#32).wellFormed = true ∧ (Instr.undef 254#32).wellFormed = true ∧
      (Instr.undef 256#32).wellFormed = true ∧ (Instr.undef 0xFFFFFFFF#32).wellFormed = true := by decide

/-! ### Decoding: words written out from the opcode map of R55 and the formats of R51 -/

theorem test_decode_nop : decodeWords 0x00000000#32 7#32 8#32 9#32 = .nop := by decide
theorem test_decode_mov : decodeWords 0x00000001#32 0#32 5#32 0#32 = .mov 0#32 5#32 0#32 := by decide
theorem test_decode_add : decodeWords 0x00000002#32 0#32 1#32 1#32 = .add 0#32 1#32 1#32 := by decide
theorem test_decode_sub : decodeWords 0x00000003#32 1#32 7#32 0#32 = .sub 1#32 7#32 0#32 := by decide
theorem test_decode_mul : decodeWords 0x00000004#32 3#32 7#32 0#32 = .mul 3#32 7#32 0#32 := by decide
theorem test_decode_div : decodeWords 0x00000005#32 0#32 1#32 2#32 = .div 0#32 1#32 2#32 := by decide
theorem test_decode_xor : decodeWords 0x00000006#32 2#32 10#32 0#32 = .xor 2#32 10#32 0#32 := by decide
theorem test_decode_or : decodeWords 0x00000007#32 1#32 10#32 0#32 = .or 1#32 10#32 0#32 := by decide
theorem test_decode_and : decodeWords 0x00000008#32 0#32 15#32 0#32 = .and 0#32 15#32 0#32 := by decide
theorem test_decode_hlt : decodeWords 0x00000009#32 0#32 0#32 0#32 = .hlt := by decide
theorem test_decode_push : decodeWords 0x0000000A#32 2#32 1#32 0#32 = .push 2#32 1#32 := by decide
theorem test_decode_pop : decodeWords 0x0000000B#32 1#32 55#32 66#32 = .pop 1#32 := by decide
theorem test_decode_sto : decodeWords 0x0000000C#32 100#32 2#32 1#32 = .sto 100#32 2#32 1#32 := by decide
theorem test_decode_get : decodeWords 0x0000000D#32 100#32 3#32 99#32 = .get 100#32 3#32 := by decide
theorem test_decode_end : decodeWords 0x000000FF#32 0#32 0#32 0#32 = .end_ := by decide
theorem test_decode_undef : decodeWords 0xFFFFFFFF#32 0#32 0#32 0#32 = .undef 0xFFFFFFFF#32 := by decide

/-- The high bits of the opcode word count: 257 is no MOV and 0x1FF no END (R54; Part 4). -/
theorem test_decode_looks_at_the_whole_word :
    decodeWords 0x00000101#32 0#32 5#32 0#32 = .undef 257#32 ∧
      decodeWords 0x000001FF#32 0#32 0#32 0#32 = .undef 511#32 := by decide

/-- `STO 100, r2` of R62 as 128 bits, the first word least significant. -/
theorem test_decodeTableWord_full :
    decodeTableWord 128 0x0000000100000002000000640000000C = some (.sto 100#32 2#32 1#32) := by decide

/-- The table gives the opcode word only; the operand words are then 0. -/
theorem test_decodeTableWord_opcode : decodeTableWord 32 0x0D = some (.get 0#32 0#32) := by decide

theorem test_decode_rejects_a_short_list : decode [1#32, 0#32, 5#32] = .error .truncated := by rfl

/-! ### Single steps -/

/-- The word of a signed decimal number. -/
def w (n : Int) : Word := BitVec.ofInt 32 n

/-- Reset, with four registers and an image. -/
def given (x0 x1 x2 x3 : Int) (words : List Int) : State :=
  { State.reset with x := ⟨w x0, w x1, w x2, w x3⟩, rom := words.map w }

/-- The state an answer gives, if it is a next state. -/
def nextOf : Result → Option State
  | .next t => some t
  | .fault _ => none
  | .refused _ => none

/-- What a test reads of one step. -/
def after (s : State) (read : State → α) : Option α := (nextOf (step s)).map read

/-- `pc`, run state, cause and warnings after one step. -/
def statusAfter (s : State) : Option (Nat × RunState × Cause × Warn) := after s fun t => (t.pc, t.run, t.cause, t.warn)

def noWarn : Warn := ⟨false, false⟩

/-- VA2. -/
theorem test_mov_register : after (given 4 0 6 0 [1, 0, 2, 1]) (·.x.x0) = some (w 6) := by decide
/-- VA4. -/
theorem test_mov_immediate_four : after (given 1 0 0 0 [1, 0, 4, 0]) (fun t => (t.x.x0, t.warn)) = some (w 4, noWarn) := by
  decide
/-- VA5. -/
theorem test_add_wraps : after (given 2147483647 0 0 0 [2, 0, 1, 0]) (·.x.x0) = some (w (-2147483648)) := by decide
/-- VA6. -/
theorem test_add_to_itself : after (given (-2147483648) 0 0 0 [2, 0, 0, 1]) (·.x.x0) = some (w 0) := by decide
/-- VA8. -/
theorem test_sub_order : after (given 0 5 0 0 [3, 1, 7, 0]) (·.x.x1) = some (w (-2)) := by decide
/-- VA10. -/
theorem test_sub_int_min : after (given 0 0 0 (-2147483648) [3, 2, 3, 1]) (·.x.x2) = some (w (-2147483648)) := by decide
/-- VA16. -/
theorem test_mul_wraps : after (given 123456789 0 0 0 [4, 0, 1000, 0]) (·.x.x0) = some (w (-1097262584)) := by decide
/-- VA17. -/
theorem test_mul_square : after (given 46341 0 0 0 [4, 0, 0, 1]) (·.x.x0) = some (w (-2147479015)) := by decide
/-- VB2. -/
theorem test_div_truncates : after (given (-7) 0 0 0 [5, 0, 2, 0]) (·.x.x0) = some (w (-3)) := by decide
/-- VB13. -/
theorem test_div_by_defaulted_register :
    statusAfter (given 5 0 0 0 [5, 0, 8, 1]) = some (0, .faulted, .divZero, noWarn) := by decide
/-- VC2. -/
theorem test_xor_negative : after (given 0 0 (-1) 0 [6, 2, 15, 0]) (·.x.x2) = some (w (-16)) := by decide
/-- VC8. -/
theorem test_or_negative : after (given 0 (-8) 0 0 [7, 1, -3, 0]) (·.x.x1) = some (w (-3)) := by decide
/-- VC12. -/
theorem test_and_negative : after (given (-8) 0 0 0 [8, 0, -3, 0]) (·.x.x0) = some (w (-8)) := by decide
/-- VC14. -/
theorem test_and_defaulted :
    after (given 5 0 0 0 [8, 0, 6, 1]) (fun t => (t.x.x0, t.warn)) = some (w 0, ⟨false, true⟩) := by decide

/-- A stack with slot `i` written and `sp` given. -/
def withStack (s : State) (stk : Memory) (sp : Nat) : State := { s with stk := stk, sp := sp }

/-- VD3. -/
theorem test_push_last_slot :
    after (withStack (given 0 0 0 0 [10, 1, 0, 0]) [] 511) (fun t => (t.sp, t.stk)) = some (512, [(511, w 1)]) := by decide
/-- VD4. -/
theorem test_push_full :
    after (withStack (given 0 0 0 0 [10, 1, 0, 0]) [] 512) (fun t => (t.sp, t.cause)) = some (512, .stackOverflow) := by
  decide
/-- VD6. -/
theorem test_pop_top :
    after (withStack (given 0 0 0 0 [11, 3, 0, 0]) [(1, w (-5))] 2) (fun t => (t.x.x3, t.sp)) = some (w (-5), 1) := by decide
/-- VD8. -/
theorem test_pop_checks_destination_first :
    after (withStack (given 0 0 0 0 [11, 4, 0, 0]) [(0, w 9)] 1) (fun t => (t.cause, t.sp)) = some (.regIndex, 1) := by
  decide
/-- VE6. -/
theorem test_sto_literal_address : after (given 0 0 0 100 [12, 3, 3, 1]) (·.mem) = some [(3, w 100)] := by decide
/-- VE5. -/
theorem test_sto_below_memory : statusAfter (given 0 0 0 0 [12, -1, 1, 0]) = some (0, .faulted, .memBounds, noWarn) := by
  decide
/-- VE8. -/
theorem test_get_loads :
    after { given 0 0 0 0 [13, 100, 3, 0] with mem := [(100, w 42)] } (·.x.x3) = some (w 42) := by decide
/-- VE12. -/
theorem test_get_checks_destination_first :
    statusAfter (given 0 0 0 0 [13, -1, 9, 0]) = some (0, .faulted, .regIndex, noWarn) := by decide
/-- VF2, with the NOP at word 0. -/
theorem test_nop_ignores_operands :
    statusAfter (given 0 0 0 0 [0, 7, 8, 9]) = some (4, .running, .none, noWarn) := by decide
/-- VF3. -/
theorem test_hlt :
    statusAfter { given 0 0 0 0 [0, 0, 0, 0, 9, 0, 0, 0] with pc := 4 } = some (8, .halted, .none, noWarn) := by decide
/-- S5. -/
theorem test_end : statusAfter (given 0 0 0 0 [255, 0, 0, 0]) = some (4, .terminated, .none, noWarn) := by decide
/-- VF6. -/
theorem test_undef_all_ones :
    statusAfter (given 0 0 0 0 [-1, 0, 0, 0]) = some (4, .running, .none, ⟨true, false⟩) := by decide
/-- VF7. -/
theorem test_undef_257 : after (given 1 2 3 4 [257, 0, 5, 0]) (·.x) = some ⟨w 1, w 2, w 3, w 4⟩ := by decide

/-- VF8. -/
theorem test_fetch_past_end :
    statusAfter { given 0 0 0 0 [0, 0, 0, 0, 0, 0, 0, 0] with pc := 8 } = some (8, .faulted, .fetchPastEnd, noWarn) := by
  decide
/-- VF9: the state after reset, with its empty image. -/
theorem test_empty_image : statusAfter State.reset = some (0, .faulted, .fetchPastEnd, noWarn) := by decide
/-- VF10. -/
theorem test_release_with_bad_length :
    statusAfter { State.reset with host := [.releaseReset [0#32, 0#32, 0#32, 0#32, 0#32, 0#32]] } =
      some (0, .faulted, .imageLength, noWarn) := by decide
/-- VF11. -/
theorem test_cancel_running :
    statusAfter { given 0 0 0 0 [0, 0, 0, 0, 0, 0, 0, 0] with pc := 4, host := [.cancel] } =
      some (4, .cancelled, .none, noWarn) := by decide
/-- VF12. -/
theorem test_cancel_halted : after { State.reset with run := .halted, host := [.cancel] } (·.run) = some .cancelled := by
  decide
/-- VF13. -/
theorem test_cancel_terminated :
    after { State.reset with run := .terminated, host := [.cancel] } (·.run) = some .terminated := by decide
/-- VF14. -/
theorem test_halted_poll :
    after { State.reset with run := .halted } id = some { State.reset with run := .halted } := by decide

/-- The fetch after reset runs the word placed for it: `ADD r0, 1` (VA5's instruction) on 0. -/
theorem test_withFetchWord_runs :
    after (State.reset.withFetchWord 128 0x00000000000000010000000000000002) (fun t => (t.x.x0, t.pc)) = some (w 1, 4) := by
  decide

/-- R6: SPW is 10 at the default 512; PCW is 1 for an empty image, and 4 for `ROM_LEN = 8`, whose last `pc` is 8 (VF8). -/
theorem test_widths : widthFor 512 = 10 ∧ widthFor 0 = 1 ∧ widthFor 7 = 3 ∧ widthFor 8 = 4 := by decide

/-! ### Witnesses: encoding -/

/-- A state that executes: `MOV r0, 5` of R62 at word 4, after a NOP. -/
def ready : State := { given 0 0 0 0 [0, 0, 0, 0, 1, 0, 5, 0] with pc := 4 }

/-- A state about to fetch past the end. -/
def atEnd : State := { given 0 0 0 0 [0, 0, 0, 0, 1, 0, 5, 0] with pc := 8 }

theorem ready_executes : Executes ready := ⟨rfl, rfl, rfl⟩
theorem atEnd_executes : Executes atEnd := ⟨rfl, rfl, rfl⟩

theorem witness_StepRunsDecodedInstruction :
    Executes ready ∧ decode (ready.rom.drop ready.pc) = .ok (.mov 0#32 5#32 0#32, []) := ⟨ready_executes, rfl⟩

theorem undefined_opcodes :
    UndefinedOpcode (w (-1)) ∧ UndefinedOpcode (w (-2147483648)) ∧ UndefinedOpcode 14#32 ∧ UndefinedOpcode 254#32 ∧
      UndefinedOpcode 256#32 ∧ UndefinedOpcode (w 2147483647) := by
  unfold UndefinedOpcode; decide

theorem witness_OpcodeSelectsByWholeWord :
    (0#32).toInt = 0 ∧ (1#32).toInt = 1 ∧ (2#32).toInt = 2 ∧ (3#32).toInt = 3 ∧ (4#32).toInt = 4 ∧ (5#32).toInt = 5 ∧
      (6#32).toInt = 6 ∧ (7#32).toInt = 7 ∧ (8#32).toInt = 8 ∧ (9#32).toInt = 9 ∧ (10#32).toInt = 10 ∧
      (11#32).toInt = 11 ∧ (12#32).toInt = 12 ∧ (13#32).toInt = 13 ∧ (255#32).toInt = 255 ∧ UndefinedOpcode 254#32 :=
  ⟨by decide, by decide, by decide, by decide, by decide, by decide, by decide, by decide, by decide, by decide,
    by decide, by decide, by decide, by decide, by decide, undefined_opcodes.2.2.2.1⟩

theorem witness_IgnoredWordsHaveNoEffect :
    (0#32).toInt = 0 ∧ (9#32).toInt = 9 ∧ (255#32).toInt = 255 ∧ UndefinedOpcode 256#32 ∧ (10#32).toInt = 10 ∧
      (11#32).toInt = 11 ∧ (13#32).toInt = 13 :=
  ⟨by decide, by decide, by decide, undefined_opcodes.2.2.2.2.1, by decide, by decide, by decide⟩

theorem witness_DecodeInvertsEncode :
    (Instr.sto (w (-1)) (w (-2147483648)) (w 2147483647)).wellFormed = true ∧ (Instr.undef 14#32).wellFormed = true := by
  decide

/-! ### Witnesses: operands and destinations -/

theorem ids_out : IdOutOfRange 4#32 ∧ IdOutOfRange (w (-1)) := ⟨.inr (by decide), .inl (by decide)⟩
theorem ids_in : (0#32).toInt = Reg.x0.index ∧ (3#32).toInt = Reg.x3.index := ⟨by decide, by decide⟩

/-- `MOV r0, r4` completes. -/
theorem witness_RegReadIsLenient :
    ((0#32).toInt = Reg.x0.index ∧ (3#32).toInt = Reg.x3.index) ∧ (IdOutOfRange 4#32 ∧ IdOutOfRange (w (-1))) ∧
      resolverPair (.mov 0#32 4#32 1#32) = some (4#32, 1#32) ∧ (1#32).toInt ≠ 0 ∧
      ∃ t, exec (.mov 0#32 4#32 1#32) ready = .next t ∧ t.pc = ready.pc + 4 :=
  ⟨ids_in, ids_out, rfl, by decide, _, rfl, rfl⟩

theorem witness_ResolveByFlag :
    (1#32).toInt ≠ 0 ∧ (7#32).toInt ≠ 0 ∧ (w (-1)).toInt ≠ 0 ∧ (0#32).toInt = 0 := by decide

theorem witness_RegIndexFaultExactly :
    (destOf (.get 2048#32 4#32) = some 4#32 ∧ IdOutOfRange 4#32) ∧
      ∃ t, exec (.pop (w (-1))) ready = .next t ∧ ready.run ≠ .faulted ∧ t.run = .faulted ∧ t.cause = .regIndex :=
  ⟨⟨rfl, ids_out.1⟩, _, rfl, by decide, rfl, rfl⟩

/-- The two clauses of `RvfRule`, at the ends of their ranges. -/
abbrev RvfClauses : Prop :=
  (IdOutOfRange 4#32 ∧ IdOutOfRange (w (-1))) ∧ (0#32).toInt = Reg.x0.index ∧ (3#32).toInt = Reg.x3.index

theorem witness_MovWritesOperand : RvfClauses := ⟨ids_out, ids_in⟩
theorem witness_AddWrapsSum : RvfClauses := ⟨ids_out, ids_in⟩
theorem witness_SubWrapsDifference : RvfClauses := ⟨ids_out, ids_in⟩
theorem witness_MulWrapsProduct : RvfClauses := ⟨ids_out, ids_in⟩
theorem witness_XorIsBitwise : RvfClauses := ⟨ids_out, ids_in⟩
theorem witness_OrIsBitwise : RvfClauses := ⟨ids_out, ids_in⟩
theorem witness_AndIsBitwise : RvfClauses := ⟨ids_out, ids_in⟩

/-- The divisor 0 as an immediate and as a defaulted read (VB11, VB13), and the divisors 1 and -1. -/
theorem witness_DivTruncatesOrFaults :
    RvfClauses ∧ (resolve ready 0#32 0#32).value.toInt = 0 ∧ (resolve ready 8#32 1#32).value.toInt = 0 ∧
      (resolve ready 1#32 0#32).value.toInt ≠ 0 ∧ (resolve ready (w (-1)) 0#32).value.toInt ≠ 0 :=
  ⟨⟨ids_out, ids_in⟩, by decide, by decide, by decide, by decide⟩

theorem witness_DivisionLaw :
    (0#32).toInt = 0 ∧ (1#32).toInt ≠ 0 ∧ (w (-2147483648)).toInt = -2 ^ 31 ∧ (w (-1)).toInt = -1 := by decide

/-! ### Witnesses: stack, load and store -/

/-- `ready` with `n` pushes of 9 behind it. -/
def pushed (n : Nat) : State := withStack ready ((List.range n).map fun i => (i, 9#32)) n

/-- Full at the spec's test size `STACK_CAP = 2` (S7), and with one slot free. -/
theorem witness_PushStoresAtStackPointer :
    ({ pushed 2 with stackCap := 2 } : State).sp = ({ pushed 2 with stackCap := 2 } : State).stackCap ∧
      ({ pushed 1 with stackCap := 2 } : State).sp < ({ pushed 1 with stackCap := 2 } : State).stackCap ∧
      (pushed 0).sp < (pushed 0).stackCap := by decide

theorem witness_PopTakesStackTop : RvfClauses ∧ (pushed 0).sp = 0 ∧ 0 < (pushed 1).sp :=
  ⟨⟨ids_out, ids_in⟩, rfl, by decide⟩

theorem witness_PushThenPopRestores :
    (3#32).toInt = Reg.x3.index ∧ (w (-1)).toInt ≠ 0 ∧ (pushed 1).sp < (pushed 1).stackCap := by decide

theorem witness_StackIsLastInFirstOut :
    (3#32).toInt = Reg.x3.index ∧ (pushed 1).sp + [1#32, 2#32].length ≤ ({ pushed 1 with stackCap := 3 } : State).stackCap ∧
      1 < [1#32, 2#32].length := by decide

/-- The addresses -1 and 2048 beside 0 and 2047 (VE2 to VE5). -/
theorem addresses :
    (AddrOutOfBounds ready 2048#32 ∧ AddrOutOfBounds ready (w (-1))) ∧
      (0 ≤ (0#32).toInt ∧ (0#32).toInt < ready.memCap) ∧ (0 ≤ (2047#32).toInt ∧ (2047#32).toInt < ready.memCap) :=
  ⟨⟨.inr (by decide), .inl (by decide)⟩, by decide, by decide⟩

theorem witness_StoWritesOneWord :
    (AddrOutOfBounds ready 2048#32 ∧ AddrOutOfBounds ready (w (-1))) ∧
      (0 ≤ (0#32).toInt ∧ (0#32).toInt < ready.memCap) ∧ (0 ≤ (2047#32).toInt ∧ (2047#32).toInt < ready.memCap) :=
  addresses

theorem witness_GetLoadsOneWord :
    RvfClauses ∧ (AddrOutOfBounds ready 2048#32 ∧ AddrOutOfBounds ready (w (-1))) ∧
      (0 ≤ (0#32).toInt ∧ (0#32).toInt < ready.memCap) ∧ (0 ≤ (2047#32).toInt ∧ (2047#32).toInt < ready.memCap) :=
  ⟨⟨ids_out, ids_in⟩, addresses⟩

/-- Between the STO to 2047 and the GET, a STO to 2046 and an ADD. -/
theorem witness_StoreThenLoad :
    (3#32).toInt = Reg.x3.index ∧ 0 ≤ (2047#32).toInt ∧ (2047#32).toInt < ready.memCap ∧
      (∀ i ∈ [Instr.sto 2046#32 5#32 0#32, .add 0#32 1#32 0#32], ∀ v f, i ≠ .sto 2047#32 v f) ∧
      ∃ u, execAll [.sto 2047#32 (w (-1)) 0#32, .sto 2046#32 5#32 0#32, .add 0#32 1#32 0#32] ready = .next u := by
  refine ⟨by decide, by decide, by decide, fun i hi v f => ?_, _, rfl⟩
  rcases List.mem_pair.1 hi with rfl | rfl <;> simp

/-- RAM in which only word 3 is written: word 4 was not. -/
theorem witness_RamReadsLastWrite : ∀ c ∈ ({ ready with mem := [(3, 7#32)] } : State).mem, c.1 ≠ 4 := by decide

/-! ### Witnesses: control, faults, warnings -/

theorem witness_HltEntersHalted :
    (∃ t, exec .hlt ready = .next t ∧ t.nextMove = .idle) ∧
      ∃ t, exec .hlt { ready with host := [.cancel] } = .next t ∧ t.nextMove = .cancel ∧ t.inReset = false :=
  ⟨⟨_, rfl, rfl⟩, _, rfl, rfl, rfl⟩

theorem witness_EndTerminates :
    (∃ t, exec .end_ ready = .next t ∧ t.nextMove = .idle) ∧
      ∃ t, exec .end_ { ready with host := [.cancel] } = .next t ∧ t.nextMove = .cancel :=
  ⟨⟨_, rfl, rfl⟩, _, rfl, rfl⟩

theorem witness_UndefSkipsWithWarning :
    UndefinedOpcode (w (-1)) ∧ UndefinedOpcode (w (-2147483648)) ∧ UndefinedOpcode 14#32 ∧ UndefinedOpcode 254#32 ∧
      UndefinedOpcode 256#32 ∧ UndefinedOpcode (w 2147483647) := undefined_opcodes

theorem witness_FaultsArePrecise :
    (∃ t, exec (.div 0#32 0#32 0#32) ready = .next t ∧ ready.run ≠ .faulted ∧ t.run = .faulted) ∧
      Executes atEnd ∧ atEnd.rom.length < atEnd.pc + 4 ∧ ∃ t, step atEnd = .next t :=
  ⟨⟨_, rfl, by decide, rfl⟩, atEnd_executes, by decide, _, rfl⟩

/-- The premises, and each of the four faults where its rule raises it. -/
theorem witness_OwnFaultsExactly :
    ready.sp ≤ ready.stackCap ∧ ready.run ≠ .faulted ∧
      (∃ t, exec (.div 3#32 8#32 1#32) ready = .next t ∧ t.run = .faulted ∧ t.cause = .divZero) ∧
      (∃ t, exec (.sto 2048#32 1#32 0#32) ready = .next t ∧ t.run = .faulted ∧ t.cause = .memBounds) ∧
      (∃ t, exec (.get (w (-1)) 0#32) ready = .next t ∧ t.run = .faulted ∧ t.cause = .memBounds) ∧
      (∃ t, exec (.push 1#32 0#32) { pushed 2 with stackCap := 2 } = .next t ∧ t.run = .faulted ∧
        t.cause = .stackOverflow) ∧
      ∃ t, exec (.pop 0#32) ready = .next t ∧ t.run = .faulted ∧ t.cause = .stackUnderflow :=
  ⟨by decide, by decide, ⟨_, rfl, rfl, rfl⟩, ⟨_, rfl, rfl, rfl⟩, ⟨_, rfl, rfl, rfl⟩, ⟨_, rfl, rfl, rfl⟩, _, rfl, rfl,
    rfl⟩

/-- `cancel` at an instruction that would fault; a fetch past the end; `DIV r4, 0` and `GET -1, r4`; `POP r0` on the
empty stack. -/
theorem witness_FaultPriority :
    (({ atEnd with host := [.cancel] } : State).nextMove = .cancel ∧ atEnd.inReset = false ∧ atEnd.run = .running) ∧
      (Executes atEnd ∧ atEnd.rom.length < atEnd.pc + 4) ∧
      (destOf (.div 4#32 0#32 0#32) = some 4#32 ∧ destOf (.get (w (-1)) 4#32) = some 4#32 ∧ IdOutOfRange 4#32) ∧
      ∃ t, exec (.pop 0#32) ready = .next t ∧ ready.run ≠ .faulted ∧ t.run = .faulted ∧ t.cause ≠ .regIndex :=
  ⟨⟨rfl, rfl, rfl⟩, ⟨atEnd_executes, by decide⟩, ⟨rfl, rfl, ids_out.1⟩, _, rfl, by decide, rfl, by decide⟩

/-- A faulting and a completing instruction, and a step of a core that has warned. -/
theorem witness_WarningsAreStickyAndInert :
    (∃ t, exec (.div 0#32 8#32 1#32) ready = .next t ∧ ready.run ≠ .faulted ∧ t.run = .faulted) ∧
      (∃ t, exec (.add 0#32 8#32 1#32) ready = .next t ∧ t.run ≠ .faulted) ∧
      ∃ t, step { ready with warn := ⟨true, true⟩ } = .next t ∧
        (∀ image, ({ ready with warn := ⟨true, true⟩ } : State).nextMove ≠ .releaseReset image) :=
  ⟨⟨_, rfl, by decide, rfl⟩, ⟨_, rfl, by decide⟩, _, rfl, fun _ h => by cases h⟩

theorem witness_EndOfRunTellsAll :
    ∃ t, step ready = .next t ∧ (∀ image, ready.nextMove ≠ .releaseReset image) ∧ CleanRun t :=
  ⟨_, rfl, (fun _ h => by cases h), by decide, rfl, by decide⟩

/-! ### Witnesses: fetch and the program counter -/

theorem witness_FetchReadsFourWords :
    Executes ready ∧ (Executes atEnd ∧ atEnd.rom.length < atEnd.pc + 4) ∧
      ready.rom[ready.pc]? = some 1#32 ∧ ready.rom[ready.pc + 1]? = some 0#32 ∧ ready.rom[ready.pc + 2]? = some 5#32 ∧
      ready.rom[ready.pc + 3]? = some 0#32 :=
  ⟨ready_executes, ⟨atEnd_executes, by decide⟩, by decide, by decide, by decide, by decide⟩

theorem witness_PcAdvancesByFour :
    (∃ t, exec .hlt ready = .next t ∧ ready.run ≠ .faulted ∧ t.run ≠ .faulted) ∧
      (∃ t, exec (.mov 4#32 0#32 0#32) ready = .next t ∧ t.run = .faulted) ∧
      Executes atEnd ∧ atEnd.rom.length < atEnd.pc + 4 ∧ ∃ t, step atEnd = .next t :=
  ⟨⟨_, rfl, by decide, by decide⟩, ⟨_, rfl, rfl⟩, atEnd_executes, by decide, _, rfl⟩

theorem witness_PcSequencerHasNoOtherInput : ∃ t, step ready = .next t := ⟨_, rfl⟩

theorem atEnd_inv : MachineInv atEnd where
  memCap_pos := by decide
  stackCap_pos := by decide
  ram_wf := by decide
  ram_inside := by decide
  stk_wf := by decide
  stk_inside := by decide
  sp_le := by decide
  occupied_written := fun _ h => absurd h (Nat.not_lt_zero _)
  pc_aligned := by decide
  pc_le := by decide
  cause_iff := by decide
  imageLength_iff := by decide
  imageLength_pc := by decide

theorem witness_RunningOffTheEnd :
    MachineInv atEnd ∧ Executes atEnd ∧ atEnd.pc = atEnd.rom.length ∧
      ∃ t, step atEnd = .next t ∧ atEnd.cause ≠ .fetchPastEnd ∧ t.cause = .fetchPastEnd :=
  ⟨atEnd_inv, atEnd_executes, by decide, _, rfl, by decide, rfl⟩

/-! ### Witnesses: the run-state machine, the host, reset -/

/-- A stopped core and the host's moves. -/
def stopped (r : RunState) (host : List HostMove) : State := { State.reset with run := r, host := host }

theorem witness_HaltedStandsStill :
    (stopped .halted []).run = .halted ∧ (stopped .halted []).inReset = false ∧ (stopped .halted []).nextMove = .idle ∧
      (stopped .halted [.cancel]).nextMove = .cancel ∧ (stopped .halted []).host = [] := by decide

theorem witness_StoppedStatesAreTerminal :
    ((stopped .terminated []).run = .terminated ∧ (stopped .cancelled []).run = .cancelled ∧
      (stopped .faulted []).run = .faulted) ∧ HostNeverResets (stopped .terminated [.cancel, .idle]) :=
  ⟨by decide, fun m hm => (List.mem_pair.1 hm).symm⟩

theorem witness_CancelBetweenSteps :
    (stopped .running [.cancel]).nextMove = .cancel ∧ (stopped .running [.cancel]).inReset = false ∧
      (stopped .running [.cancel]).run = .running ∧ (stopped .halted [.cancel]).run = .halted ∧
      (stopped .terminated [.cancel]).run = .terminated ∧ (stopped .cancelled [.cancel]).run = .cancelled ∧
      (stopped .faulted [.cancel]).run = .faulted := by decide

/-- `HLT` of S5's shape: the step changes the run state. -/
theorem witness_RunStateChangesOnlyBy :
    ∃ t, step (given 0 0 0 0 [9, 0, 0, 0]) = .next t ∧ t.run ≠ (given 0 0 0 0 [9, 0, 0, 0]).run :=
  ⟨_, rfl, by decide⟩

/-- Images of length 4 and 6. -/
theorem witness_ResetReleaseInitialises :
    ((stopped .faulted [.releaseReset (encode .hlt)]).nextMove = .releaseReset (encode .hlt) ∧
      (releaseReset (encode .hlt) ready).rom.length % 4 = 0) ∧
      (stopped .faulted [.releaseReset [0#32, 0#32, 0#32, 0#32, 0#32, 0#32]]).nextMove =
        .releaseReset [0#32, 0#32, 0#32, 0#32, 0#32, 0#32] ∧
      (releaseReset [0#32, 0#32, 0#32, 0#32, 0#32, 0#32] ready).rom.length % 4 ≠ 0 := by decide

theorem witness_ReleasePlacesImageAndFreesMemory :
    (stopped .faulted [.releaseReset []]).nextMove = .releaseReset [] := by decide

/-- Two states of different runs. -/
theorem witness_NothingSurvivesReset :
    let s := stopped .faulted [.releaseReset []]
    let t := { stopped .halted [.releaseReset []] with x := ⟨1#32, 2#32, 3#32, 4#32⟩, mem := [(7, 7#32)] }
    s.nextMove = .releaseReset [] ∧ t.nextMove = .releaseReset [] ∧ s.memCap = t.memCap ∧ s.stackCap = t.stackCap ∧
      s.host.tail = t.host.tail ∧ s.launchNo = t.launchNo := by decide

theorem witness_HeldResetExecutesNothing :
    (stopped .running [.holdReset]).nextMove = .holdReset ∧
      ({ ready with inReset := true } : State).inReset = true ∧
      ∀ image, ({ ready with inReset := true } : State).nextMove ≠ .releaseReset image :=
  ⟨rfl, rfl, fun _ h => by cases h⟩

theorem witness_ReleaseMeetsInvariant :
    1 ≤ ({ ready with memCap := 1, stackCap := 1 } : State).memCap ∧
      1 ≤ ({ ready with memCap := 1, stackCap := 1 } : State).stackCap := by decide

theorem witness_StepKeepsInvariant : MachineInv atEnd ∧ ∃ t, step atEnd = .next t := ⟨atEnd_inv, _, rfl⟩

theorem witness_OnlyNamedWriters :
    ∃ t, exec (.mov 0#32 5#32 0#32) ready = .next t ∧ t.reg .x0 ≠ ready.reg .x0 ∧
      (∀ addr val flag, Instr.mov 0#32 5#32 0#32 ≠ .sto addr val flag) ∧
      (∀ val flag, Instr.mov 0#32 5#32 0#32 ≠ .push val flag) ∧
      ∃ u, exec (.push 5#32 0#32) ready = .next u ∧ u.sp ≠ ready.sp :=
  ⟨_, rfl, by decide, by simp, by simp, _, rfl, by decide⟩

theorem witness_RomNeverChangesDuringRun :
    (∃ t, step ready = .next t) ∧ ∀ image, ready.nextMove ≠ .releaseReset image := ⟨⟨_, rfl⟩, fun _ h => by cases h⟩

/-- Two stacks that differ in the stale slot 1 only. -/
theorem witness_StaleStackIsInvisible :
    let s := withStack ready [(0, 9#32), (1, 5#32)] 1
    let t := withStack ready [(0, 9#32), (1, 6#32)] 1
    SameButStale s t ∧ s ≠ t ∧ (∃ s', step s = .next s') ∧ ∃ t', step t = .next t' :=
  ⟨⟨rfl, fun i hi => by have : i = 0 := Nat.lt_one_iff.1 hi; subst this; rfl⟩, by decide, ⟨_, rfl⟩, _, rfl⟩

theorem witness_RunsStopInBoundedTime : HostNeverResets ready ∧ ready.inReset = false :=
  ⟨fun _ h => by simp [ready, given, State.reset] at h, rfl⟩

theorem witness_PcAndSpFitTheirWidths :
    MachineInv atEnd ∧ 1 ≤ atEnd.pcw ∧ atEnd.rom.length < 2 ^ atEnd.pcw ∧ 1 ≤ atEnd.spw ∧ atEnd.stackCap < 2 ^ atEnd.spw :=
  ⟨atEnd_inv, by decide, by decide, by decide, by decide⟩

end Sys2Proof.Tests
end

/-! ## Proofs about the state: the program counter, the codes the host reads, and reset (10_state.md) -/
section
namespace Sys2Proof.Machine

/-! ### The program counter -/

/-- Settles O40: a fault entry keeps `pc` (R126), and every completed form advances it (R18). -/
theorem pcAdvancesByFour : Obligations.PcAdvancesByFour := by
  refine ⟨fun i s t hexec hrun => ?_, fun s t hexe hpc hstep => ?_⟩
  · rcases answers_of_exec hexec with ⟨c, -, rfl⟩ | hdone
    · exact ⟨fun hne => absurd (takeFault_run c s) hne, fun _ => takeFault_pc c s⟩
    · exact ⟨fun _ => hdone.pc_eq, fun hfault => absurd hfault (hdone.run_ne_faulted hrun)⟩
  · rw [step_executes_past_end hexe hpc] at hstep
    cases hstep
    exact takeFault_pc .fetchPastEnd s.consumeMove

/-! ### The codes the host reads -/

theorem Warn.bits_getLsbD_zero (w : Warn) : w.bits.getLsbD 0 = w.unkOpcode :=
  BitVec.getLsbD_append.trans (by simp)

theorem Warn.bits_getLsbD_one (w : Warn) : w.bits.getLsbD 1 = w.regDefaulted :=
  BitVec.getLsbD_append.trans (by simp)

/-- Settles O47: the code tables read off their definitions, and the two warning bits by their laws (R25, R26, R27). -/
theorem hostReadsCodes : Obligations.HostReadsCodes :=
  ⟨rfl, rfl, rfl, rfl, rfl, rfl, rfl, rfl, rfl, rfl, rfl, rfl, rfl,
    fun w => ⟨w.bits_getLsbD_zero, w.bits_getLsbD_one⟩, fun _ => rfl⟩

/-! ### Reset and its release -/

@[simp] theorem reg_reset (r : Reg) : State.reset.reg r = 0#32 := by
  cases r <;> rfl

/-- The release of reset writes the registers as `State.reset` has them, whatever the image. -/
@[simp] theorem reg_releaseReset (image : List Word) (s : State) (r : Reg) :
    (releaseReset image s).reg r = 0#32 :=
  reg_reset r

@[simp] theorem releaseReset_rom (image : List Word) (s : State) : (releaseReset image s).rom = image := rfl

/-- The image-length check passes (R97). -/
theorem releaseReset_status_of_aligned {image : List Word} (s : State) (h : image.length % 4 = 0) :
    (releaseReset image s).run = .running ∧ (releaseReset image s).cause = .none :=
  ⟨if_pos h, if_pos h⟩

/-- The image-length check fails (R97). -/
theorem releaseReset_status_of_misaligned {image : List Word} (s : State) (h : image.length % 4 ≠ 0) :
    (releaseReset image s).run = .faulted ∧ (releaseReset image s).cause = .imageLength :=
  ⟨if_neg h, if_neg h⟩

/-- A step at which the host releases reset is that release, with the host's move consumed. -/
theorem step_releaseReset {s : State} {image : List Word} (h : s.nextMove = .releaseReset image) :
    step s = .next (releaseReset image s.consumeMove) :=
  step_rest (by simp only [sampleHost, h])

/-- Settles O48: the step is the release of reset, whose image-length check decides between the two outcomes (R97). -/
theorem resetReleaseInitialises : Obligations.ResetReleaseInitialises := fun s image hmove =>
  ⟨releaseReset image s.consumeMove, step_releaseReset hmove, reg_releaseReset image s.consumeMove,
    rfl, rfl, rfl, rfl, releaseReset_status_of_aligned s.consumeMove, releaseReset_status_of_misaligned s.consumeMove⟩

/-- Settles O52: the registers by `reg_reset`, the other fields as `State.reset` lists them. -/
theorem resetStateValues : Obligations.ResetStateValues :=
  ⟨reg_reset, rfl, rfl, rfl, rfl, rfl, rfl, rfl, rfl, rfl⟩

end Sys2Proof.Machine
end

/-! ## Proofs about memory: RAM words after a write, and the program image during a run (20_memory.md) -/
section
namespace Sys2Proof.Machine

/-! ### RAM words never written -/

/-- A word array has nothing to read at an address exactly when it does not list that address. -/
theorem Memory.read_eq_none_iff {m : Memory} {a : Nat} : Memory.read m a = none ↔ ∀ c ∈ m, c.1 ≠ a := by
  induction m with
  | nil => simp [Memory.read]
  | cons c m ih =>
    by_cases hc : c.1 = a
    · simp [Memory.read, hc]
    · simp [Memory.read, hc, ih]

theorem ramWord_of_unwritten {s : State} {a : Nat} (h : ∀ c ∈ s.mem, c.1 ≠ a) :
    ramWord s a = Config.memInit s.launchNo a := by
  simp [ramWord, Memory.read_eq_none_iff.2 h]

/-- Settles O28: the two laws of a RAM word after a write, and the free value of a word no write has listed (R43). -/
theorem ramReadsLastWrite : Obligations.RamReadsLastWrite :=
  ⟨fun s a v => ⟨ramWord_ramStore_self s a v, fun _ hb => ramWord_ramStore_other s v hb⟩,
    fun _ _ => ramWord_of_unwritten⟩

/-! ### The program image and the sizes (R48) -/

theorem ParamsKept.refl (s : State) : ParamsKept s s := ⟨rfl, rfl, rfl, rfl, rfl, rfl⟩

theorem takeFault_paramsKept (c : Cause) (s : State) : ParamsKept s (takeFault c s) := .refl s

/-- Whichever form an instruction completes in, it writes none of the parameters (R13). -/
theorem Completes.paramsKept {i : Instr} {s t : State} (h : Completes i s t) : ParamsKept s t := by
  cases h <;> exact .refl s

theorem Answers.paramsKept {i : Instr} {s t : State} (h : Answers i s t) : ParamsKept s t := by
  rcases h with ⟨c, -, rfl⟩ | hdone
  · exact takeFault_paramsKept c s
  · exact hdone.paramsKept

/-- Sampling `cancel` either changes nothing or writes the run state alone (R103). -/
theorem takeCancel_cases (s : State) : takeCancel s = s ∨ takeCancel s = { s with run := .cancelled } := by
  unfold takeCancel
  split_ifs
  · exact .inl rfl
  · cases s.run <;> simp

theorem takeCancel_paramsKept (s : State) : ParamsKept s (takeCancel s) := by
  rcases takeCancel_cases s with h | h <;> rw [h] <;> exact .refl s

/-- Once the host's move is consumed, a step writes a parameter only where the host releases or asserts reset. -/
theorem Steps.params_cases {s t : State} (h : Steps s t) :
    (∃ image, s.nextMove = .releaseReset image ∧ t = releaseReset image s.consumeMove) ∨
      t = { s.consumeMove with inReset := true } ∨ ParamsKept s.consumeMove t := by
  cases h with
  | resets image hm => exact .inl ⟨image, hm, rfl⟩
  | holds _ => exact .inr (.inl rfl)
  | cancels _ => exact .inr (.inr (takeCancel_paramsKept _))
  | stays _ _ => exact .inr (.inr (.refl _))
  | runsOut _ _ => exact .inr (.inr (takeFault_paramsKept _ _))
  | executes _ _ _ ha => exact .inr (.inr ha.paramsKept)

/-- Settles O57: a release of reset writes ROM and keeps the sizes (R108), and no other step writes either (R48). -/
theorem romNeverChangesDuringRun : Obligations.RomNeverChangesDuringRun := by
  intro s t hstep
  rcases (steps_of_step hstep).params_cases with ⟨image, hmove, rfl⟩ | rfl | ⟨hrom, hmemCap, hstackCap, -⟩
  · exact ⟨fun hno => absurd hmove (hno image), rfl, rfl⟩
  · exact ⟨fun _ => rfl, rfl, rfl⟩
  · exact ⟨fun _ => hrom, hmemCap, hstackCap⟩

end Sys2Proof.Machine
end

/-! ## Proofs about the encoding: what each opcode word decodes to, and the words a format ignores (30_encoding.md) -/
section
namespace Sys2Proof

/-! ### The decoder, an equation per row of the opcode map (R51, R55) -/

section equations
variable (w1 w2 w3 : Word)

@[simp] theorem decodeWords_nop : decodeWords 0#32 w1 w2 w3 = .nop := rfl
@[simp] theorem decodeWords_mov : decodeWords 1#32 w1 w2 w3 = .mov w1 w2 w3 := rfl
@[simp] theorem decodeWords_add : decodeWords 2#32 w1 w2 w3 = .add w1 w2 w3 := rfl
@[simp] theorem decodeWords_sub : decodeWords 3#32 w1 w2 w3 = .sub w1 w2 w3 := rfl
@[simp] theorem decodeWords_mul : decodeWords 4#32 w1 w2 w3 = .mul w1 w2 w3 := rfl
@[simp] theorem decodeWords_div : decodeWords 5#32 w1 w2 w3 = .div w1 w2 w3 := rfl
@[simp] theorem decodeWords_xor : decodeWords 6#32 w1 w2 w3 = .xor w1 w2 w3 := rfl
@[simp] theorem decodeWords_or : decodeWords 7#32 w1 w2 w3 = .or w1 w2 w3 := rfl
@[simp] theorem decodeWords_and : decodeWords 8#32 w1 w2 w3 = .and w1 w2 w3 := rfl
@[simp] theorem decodeWords_hlt : decodeWords 9#32 w1 w2 w3 = .hlt := rfl
@[simp] theorem decodeWords_push : decodeWords 10#32 w1 w2 w3 = .push w1 w2 := rfl
@[simp] theorem decodeWords_pop : decodeWords 11#32 w1 w2 w3 = .pop w1 := rfl
@[simp] theorem decodeWords_sto : decodeWords 12#32 w1 w2 w3 = .sto w1 w2 w3 := rfl
@[simp] theorem decodeWords_get : decodeWords 13#32 w1 w2 w3 = .get w1 w2 := rfl
@[simp] theorem decodeWords_end : decodeWords 255#32 w1 w2 w3 = .end_ := rfl

end equations

/-! ### Selection by the signed value of the opcode word (R54, R57, R98) -/

/-- The signed value of the opcode word determines the word, so it selects the instruction (R54). -/
theorem decodeWords_of_toInt {op w0 w1 w2 w3 : Word} {i : Instr} (hop : decodeWords op w1 w2 w3 = i)
    (h : w0.toInt = op.toInt) : decodeWords w0 w1 w2 w3 = i :=
  BitVec.eq_of_toInt_eq h ▸ hop

/-- Where an opcode gives one instruction for two choices of operand words, so does every word of its signed value. -/
theorem decodeWords_eq_of_toInt {op w0 w1 w2 w3 v1 v2 v3 : Word} {i : Instr} (hw : decodeWords op w1 w2 w3 = i)
    (hv : decodeWords op v1 v2 v3 = i) (h : w0.toInt = op.toInt) :
    decodeWords w0 w1 w2 w3 = decodeWords w0 v1 v2 v3 :=
  (decodeWords_of_toInt hw h).trans (decodeWords_of_toInt hv h).symm

end Sys2Proof

namespace Sys2Proof.Machine

/-- The three ranges of R57 hold exactly the words outside the opcode map. -/
theorem undefinedOpcode_iff {w : Word} : UndefinedOpcode w ↔ w ∉ definedOpcodes := by
  simp only [UndefinedOpcode, mem_definedOpcodes, ← BitVec.toInt_inj, BitVec.reduceToInt]
  omega

theorem UndefinedOpcode.decodeWords {w0 : Word} (h : UndefinedOpcode w0) (w1 w2 w3 : Word) :
    decodeWords w0 w1 w2 w3 = .undef w0 :=
  decodeWords_undefined (undefinedOpcode_iff.1 h) w1 w2 w3

/-- Settles O3: each row of the opcode map is reached through the signed value of its word, and a word of the three
ranges of R57 lies outside the map. -/
theorem opcodeSelectsByWholeWord : Obligations.OpcodeSelectsByWholeWord := fun _ w1 w2 w3 =>
  ⟨decodeWords_of_toInt (decodeWords_nop w1 w2 w3), decodeWords_of_toInt (decodeWords_mov w1 w2 w3),
    decodeWords_of_toInt (decodeWords_add w1 w2 w3), decodeWords_of_toInt (decodeWords_sub w1 w2 w3),
    decodeWords_of_toInt (decodeWords_mul w1 w2 w3), decodeWords_of_toInt (decodeWords_div w1 w2 w3),
    decodeWords_of_toInt (decodeWords_xor w1 w2 w3), decodeWords_of_toInt (decodeWords_or w1 w2 w3),
    decodeWords_of_toInt (decodeWords_and w1 w2 w3), decodeWords_of_toInt (decodeWords_hlt w1 w2 w3),
    decodeWords_of_toInt (decodeWords_push w1 w2 w3), decodeWords_of_toInt (decodeWords_pop w1 w2 w3),
    decodeWords_of_toInt (decodeWords_sto w1 w2 w3), decodeWords_of_toInt (decodeWords_get w1 w2 w3),
    decodeWords_of_toInt (decodeWords_end w1 w2 w3), fun h => h.decodeWords w1 w2 w3⟩

/-- Settles O2: eight rows of the opcode map, and two words outside it (R62, R92, R93). -/
theorem workedWordsDecode : Obligations.WorkedWordsDecode :=
  ⟨decodeWords_mov .., decodeWords_add .., decodeWords_push .., decodeWords_pop .., decodeWords_sto ..,
    decodeWords_get .., decodeWords_hlt .., decodeWords_end .., decodeWords_undefined (by decide) ..,
    decodeWords_undefined (by decide) ..⟩

/-! ### The words a format ignores (R56) -/

/-- Settles O4: the equation of each row names no ignored word, so both sides decode to the same instruction. -/
theorem ignoredWordsHaveNoEffect : Obligations.IgnoredWordsHaveNoEffect := by
  intro w0 w1 w2 w3 v1 v2 v3
  refine ⟨?formatN, decodeWords_eq_of_toInt (decodeWords_push ..) (decodeWords_push ..),
    decodeWords_eq_of_toInt (decodeWords_pop ..) (decodeWords_pop ..),
    decodeWords_eq_of_toInt (decodeWords_get ..) (decodeWords_get ..)⟩
  case formatN =>
    rintro (hnop | hhlt | hend | hundef)
    · exact decodeWords_eq_of_toInt (decodeWords_nop ..) (decodeWords_nop ..) hnop
    · exact decodeWords_eq_of_toInt (decodeWords_hlt ..) (decodeWords_hlt ..) hhlt
    · exact decodeWords_eq_of_toInt (decodeWords_end ..) (decodeWords_end ..) hend
    · rw [hundef.decodeWords, hundef.decodeWords]

end Sys2Proof.Machine
end

/-! ## Proofs about the operand resolver: the lenient register read, and its two paths (40_operand_resolver.md) -/
section
namespace Sys2Proof.Machine

/-! ### The register read (R64) -/

theorem regRead_of_index {id : Word} {r : Reg} (s : State) (h : id.toInt = r.index) :
    regRead s id = ⟨s.reg r, false⟩ := by
  simp [regRead, regOf?_of_index h]

theorem regRead_of_outOfRange {id : Word} (s : State) (h : IdOutOfRange id) : regRead s id = ⟨0#32, true⟩ := by
  simp [regRead, idOutOfRange_iff.1 h]

/-! ### The two paths of the resolver (R52, R65) -/

/-- The flag is clear exactly when its signed value is 0 (R52). -/
theorem flag_clear_iff {flag : Word} : flag.toInt = 0 ↔ flag = 0#32 :=
  BitVec.toInt_inj (y := 0#32)

theorem resolve_of_set {flag : Word} (s : State) (raw : Word) (h : flag.toInt ≠ 0) :
    resolve s raw flag = regRead s raw :=
  if_neg (mt flag_clear_iff.2 h)

theorem resolve_of_clear {flag : Word} (s : State) (raw : Word) (h : flag.toInt = 0) :
    resolve s raw flag = ⟨raw, false⟩ := by
  rw [flag_clear_iff.1 h, resolve_imm]

/-- Settles O10: the two paths of the resolver. -/
theorem resolveByFlag : Obligations.ResolveByFlag := fun s raw _ =>
  ⟨resolve_of_set s raw, resolve_of_clear s raw⟩

/-! ### The warning of a completed instruction (R27, R64) -/

/-- A completed instruction, of whichever form, raises REG_DEFAULTED where its operand defaulted, and else keeps it. -/
theorem Completes.regDefaulted_eq {i : Instr} {s t : State} (h : Completes i s t) :
    t.warn.regDefaulted = (s.warn.regDefaulted || operandDefaults i s) := by
  cases h with
  | writesReg => rfl
  | skips op hi => subst hi; exact (Bool.or_false _).symm
  | _ => subst i; rfl

/-- An instruction that has advanced has completed, since a fault entry keeps `pc` (R18, R126). -/
theorem Answers.completes_of_advanced {i : Instr} {s t : State} (h : Answers i s t) (hpc : t.pc = s.pc + 4) :
    Completes i s t := by
  rcases h with ⟨c, -, rfl⟩ | hdone
  · rw [takeFault_pc] at hpc
    omega
  · exact hdone

/-- The operand of an instruction defaults when the id in it is out of range and its flag is set. -/
theorem operandDefaults_of_outOfRange {i : Instr} {id flag : Word} (s : State)
    (hpair : resolverPair i = some (id, flag)) (hid : IdOutOfRange id) (hflag : flag.toInt ≠ 0) :
    operandDefaults i s = true := by
  simp only [operandDefaults, hpair, resolve_of_set s id hflag, regRead_of_outOfRange s hid]

/-- Settles O9: the register read in and out of range; and an instruction that advances has completed, hence records
in REG_DEFAULTED that its operand defaulted. -/
theorem regReadIsLenient : Obligations.RegReadIsLenient := by
  refine fun s id => ⟨fun r => regRead_of_index s, regRead_of_outOfRange s, ?warns⟩
  case warns =>
    intro hid i flag t hpair hflag hexec hpc
    have hdone : Completes i s t := (answers_of_exec hexec).completes_of_advanced hpc
    rw [hdone.regDefaulted_eq, operandDefaults_of_outOfRange s hpair hid hflag, Bool.or_true]

end Sys2Proof.Machine
end

/-! ## Proofs about the ALU: the rule of each instruction, and the division law (41_alu.md) -/
section
namespace Sys2Proof.Machine

/-! ### Division rounded toward zero (R9, R80) -/

theorem tdiv_eq_zero_of_natAbs_lt {a b : Int} (h : a.natAbs < b.natAbs) : a.tdiv b = 0 :=
  Int.sign_eq_zero_iff_zero.1 ((Int.sign_tdiv a b).trans (if_pos h))

theorem sign_tdiv_of_ne_zero {a b : Int} (h : a.tdiv b ≠ 0) : (a.tdiv b).sign = a.sign * b.sign :=
  (Int.sign_tdiv a b).trans (if_neg (mt tdiv_eq_zero_of_natAbs_lt h))

theorem natAbs_tmod_lt (a : Int) {b : Int} (h : b ≠ 0) : (a.tmod b).natAbs < b.natAbs := by
  rw [Int.natAbs_tmod]
  exact Nat.mod_lt _ (Int.natAbs_pos.2 h)

/-- A remainder is 0 or has the sign of the dividend. -/
theorem tmod_eq_zero_or_sign_eq (a b : Int) : a.tmod b = 0 ∨ (a.tmod b).sign = a.sign := by
  by_cases h : b ∣ a
  · exact .inl (Int.tmod_eq_zero_of_dvd h)
  · exact .inr ((Int.sign_tmod a b).trans (if_neg h))

/-! ### The quotient of two words -/

theorem word_toInt_range (a : Word) : -2 ^ 31 ≤ a.toInt ∧ a.toInt < 2 ^ 31 :=
  ⟨BitVec.le_toInt a, BitVec.toInt_lt⟩

/-- Wrapping changes exactly the integers outside the range of a word. -/
theorem wrap_toInt_eq_iff {v : Int} : (wrap v).toInt = v ↔ -2 ^ 31 ≤ v ∧ v < 2 ^ 31 := by
  constructor
  · intro h
    exact h ▸ word_toInt_range (wrap v)
  · rintro ⟨hmin, hmax⟩
    have hself : IsWrap v v := ⟨hmin, by omega, by simp⟩
    exact (isWrap_wrap v).unique hself

/-- A quotient is no larger than its dividend. -/
theorem tdiv_word_range (a v : Word) : -2 ^ 31 ≤ a.toInt.tdiv v.toInt ∧ a.toInt.tdiv v.toInt ≤ 2 ^ 31 := by
  have hle := Int.natAbs_tdiv_le_natAbs a.toInt v.toInt
  have ha := word_toInt_range a
  omega

/-- The one quotient that is out of range (R80). -/
theorem tdiv_word_eq_two_pow_iff {a v : Word} (hv : v.toInt ≠ 0) :
    a.toInt.tdiv v.toInt = 2 ^ 31 ↔ a.toInt = -2 ^ 31 ∧ v.toInt = -1 := by
  constructor
  · intro hq
    have hsplit := Int.tdiv_mul_add_tmod a.toInt v.toInt
    have hrem := natAbs_tmod_lt a.toInt hv
    have ha := word_toInt_range a
    rw [hq] at hsplit
    omega
  · rintro ⟨ha, hv⟩
    rw [ha, hv]
    rfl

/-- The word written differs from the quotient in that one case. -/
theorem wrap_tdiv_ne_iff {a v : Word} (hv : v.toInt ≠ 0) :
    (wrap (a.toInt.tdiv v.toInt)).toInt ≠ a.toInt.tdiv v.toInt ↔ a.toInt = -2 ^ 31 ∧ v.toInt = -1 := by
  have hrange := tdiv_word_range a v
  rw [← tdiv_word_eq_two_pow_iff hv, ne_eq, wrap_toInt_eq_iff]
  omega

theorem wrap_tdiv_of_overflow {a v : Word} (h : a.toInt = -2 ^ 31 ∧ v.toInt = -1) :
    (wrap (a.toInt.tdiv v.toInt)).toInt = -2 ^ 31 := by
  obtain ⟨ha, hv⟩ := h
  rw [ha, hv]
  rfl

theorem aluDiv_of_toInt_eq_zero {v : Word} (a : Word) (h : v.toInt = 0) : aluDiv a v = .error .divZero :=
  BitVec.eq_of_toInt_eq (y := 0#32) h ▸ aluDiv_zero a

theorem aluDiv_of_toInt_ne_zero {v : Word} (a : Word) (h : v.toInt ≠ 0) :
    aluDiv a v = .ok (wrap (a.toInt.tdiv v.toInt)) :=
  aluDiv_ok a fun hv => h (congrArg BitVec.toInt hv)

/-- Settles O20: the quotient and the remainder are those of division rounded toward zero, and wrapping changes the
quotient only where it leaves the range of a word. -/
theorem divisionLaw : Obligations.DivisionLaw := fun a v =>
  ⟨aluDiv_of_toInt_eq_zero a, fun hv =>
    ⟨wrap (a.toInt.tdiv v.toInt), a.toInt.tdiv v.toInt, a.toInt.tmod v.toInt, aluDiv_of_toInt_ne_zero a hv,
      isWrap_wrap _, (Int.tdiv_mul_add_tmod a.toInt v.toInt).symm, natAbs_tmod_lt a.toInt hv,
      tmod_eq_zero_or_sign_eq a.toInt v.toInt, sign_tdiv_of_ne_zero, tdiv_eq_zero_of_natAbs_lt,
      wrap_tdiv_ne_iff hv, wrap_tdiv_of_overflow⟩⟩

/-! ### The common shape of an ALU instruction (R70) -/

theorem raises_of_exec {i : Instr} {s : State} {c : Cause} (h : exec i s = .next (takeFault c s)) : Raises i s c :=
  ⟨_, h, faultEntered_takeFault c s⟩

section completion
variable (s : State) (r : Reg) (y : Word) (d : Bool)

theorem advanced_complete_setReg : Advanced d s (complete (s.setReg r y) d) :=
  ⟨rfl, rfl, rfl, .refl s⟩

theorem regsKeptBut_complete_setReg : RegsKeptBut r s (complete (s.setReg r y) d) :=
  fun _ hq => reg_setReg_other s y hq

theorem ramKept_complete_setReg : RamKept s (complete (s.setReg r y) d) :=
  fun _ => rfl

theorem stackKept_complete_setReg : StackKept s (complete (s.setReg r y) d) :=
  ⟨rfl, fun _ => rfl⟩

theorem statusKept_complete_setReg : StatusKept s (complete (s.setReg r y) d) :=
  ⟨rfl, rfl⟩

end completion

/-- Completion with a register written: the result stands in it, and all else is kept (R70). -/
theorem completion_of_exec_setReg {i : Instr} {s : State} {r : Reg} {y : Word} {d : Bool} {result : Word → Prop}
    (hexec : exec i s = .next (complete (s.setReg r y) d)) (hresult : result y) :
    ∃ t, exec i s = .next t ∧ result (t.reg r) ∧ Advanced d s t ∧
      RegsKeptBut r s t ∧ RamKept s t ∧ StackKept s t ∧ StatusKept s t :=
  ⟨_, hexec, (reg_setReg_self s r y).symm ▸ hresult, advanced_complete_setReg s r y d,
    regsKeptBut_complete_setReg s r y d, ramKept_complete_setReg s r y d, stackKept_complete_setReg s r y d,
    statusKept_complete_setReg s r y d⟩

/-- An instruction that is the ALU shape for an operation `f` without faults obeys the rule of its form, for every
relation that `f` establishes. -/
theorem rvfRule_of_alu {opcode : Word} {instr : Word → Word → Word → Instr} {f : Word → Word → Word}
    {result : Word → Word → Word → Prop}
    (hdecode : ∀ rd val flag, decodeWords opcode rd val flag = instr rd val flag)
    (hexec : ∀ rd val flag s, exec (instr rd val flag) s = aluInstr (fun a v => .ok (f a v)) rd val flag s)
    (hresult : ∀ a v, result a v (f a v)) : RvfRule opcode instr result := fun s rd val flag =>
  ⟨hdecode rd val flag,
    fun hrd => raises_of_exec ((hexec rd val flag s).trans (aluInstr_out hrd)),
    fun _ hr => completion_of_exec_setReg ((hexec rd val flag s).trans (aluInstr_ok hr rfl)) (hresult _ _)⟩

/-! ### The meaning of each ALU instruction, through the shape -/

section meanings
variable (rd val flag : Word) (s : State)

theorem exec_mov : exec (.mov rd val flag) s = aluInstr (fun _ v => .ok v) rd val flag s := rfl
theorem exec_add : exec (.add rd val flag) s = aluInstr (fun a v => .ok (aluAdd a v)) rd val flag s := rfl
theorem exec_sub : exec (.sub rd val flag) s = aluInstr (fun a v => .ok (aluSub a v)) rd val flag s := rfl
theorem exec_mul : exec (.mul rd val flag) s = aluInstr (fun a v => .ok (aluMul a v)) rd val flag s := rfl
theorem exec_div : exec (.div rd val flag) s = aluInstr aluDiv rd val flag s := rfl
theorem exec_xor : exec (.xor rd val flag) s = aluInstr (fun a v => .ok (a ^^^ v)) rd val flag s := rfl
theorem exec_or : exec (.or rd val flag) s = aluInstr (fun a v => .ok (a ||| v)) rd val flag s := rfl
theorem exec_and : exec (.and rd val flag) s = aluInstr (fun a v => .ok (a &&& v)) rd val flag s := rfl

end meanings

/-! ### The rules of the ALU instructions (R71 to R78) -/

/-- Settles O12: the operation of MOV answers the operand itself. -/
theorem movWritesOperand : Obligations.MovWritesOperand :=
  rvfRule_of_alu decodeWords_mov exec_mov fun _ _ => rfl

/-- Settles O13: the model's `wrap` of the sum is the spec's. -/
theorem addWrapsSum : Obligations.AddWrapsSum :=
  rvfRule_of_alu decodeWords_add exec_add fun _ _ => isWrap_wrap _

/-- Settles O14: the model's `wrap` of the difference is the spec's. -/
theorem subWrapsDifference : Obligations.SubWrapsDifference :=
  rvfRule_of_alu decodeWords_sub exec_sub fun _ _ => isWrap_wrap _

/-- Settles O15: the model's `wrap` of the product is the spec's. -/
theorem mulWrapsProduct : Obligations.MulWrapsProduct :=
  rvfRule_of_alu decodeWords_mul exec_mul fun _ _ => isWrap_wrap _

/-- Settles O16: the ALU shape for an operation that faults at divisor 0, and otherwise wraps the quotient of R9. -/
theorem divTruncatesOrFaults : Obligations.DivTruncatesOrFaults := by
  intro s rd val flag
  refine ⟨decodeWords_div rd val flag, fun hrd => ?regIndex, fun r hr hv => ?divZero, fun r hr hv => ?quotient⟩
  case regIndex =>
    exact raises_of_exec ((exec_div rd val flag s).trans (aluInstr_out hrd))
  case divZero =>
    exact raises_of_exec ((exec_div rd val flag s).trans (aluInstr_error hr (aluDiv_of_toInt_eq_zero _ hv)))
  case quotient =>
    have hdone := (exec_div rd val flag s).trans (aluInstr_ok hr (aluDiv_of_toInt_ne_zero _ hv))
    rw [specTdiv_eq]
    exact completion_of_exec_setReg (result := fun y => IsWrap _ y.toInt) hdone (isWrap_wrap _)

/-- Settles O17: the exclusive or of two words, at each bit. -/
theorem xorIsBitwise : Obligations.XorIsBitwise :=
  rvfRule_of_alu decodeWords_xor exec_xor fun _ _ _ _ => BitVec.getLsbD_xor

/-- Settles O18: the or of two words, at each bit. -/
theorem orIsBitwise : Obligations.OrIsBitwise :=
  rvfRule_of_alu decodeWords_or exec_or fun _ _ _ _ => BitVec.getLsbD_or

/-- Settles O19: the and of two words, at each bit. -/
theorem andIsBitwise : Obligations.AndIsBitwise :=
  rvfRule_of_alu decodeWords_and exec_and fun _ _ _ _ => BitVec.getLsbD_and

end Sys2Proof.Machine
end

/-! ## Proofs about the stack: the rules of PUSH and POP, and the stack laws (42_stack.md) -/
section
namespace Sys2Proof.Machine

/-! ### PUSH and POP (R82, R83) -/

theorem exec_push_full {s : State} {val flag : Word} (h : s.stackCap ≤ s.sp) :
    exec (.push val flag) s = .next (takeFault .stackOverflow s) := by
  simp only [exec, execPush, if_pos h]

theorem exec_pop_out {s : State} {rd : Word} (h : IdOutOfRange rd) :
    exec (.pop rd) s = .next (takeFault .regIndex s) :=
  withDest_out h

theorem exec_pop_empty {s : State} {rd : Word} {r : Reg} (hr : rd.toInt = r.index) (h : s.sp = 0) :
    exec (.pop rd) s = .next (takeFault .stackUnderflow s) := by
  simp only [exec, execPop, withDest_in hr, if_pos h]

theorem advanced_complete_pushWord (s : State) (v : Word) (d : Bool) : Advanced d s (complete (pushWord s v) d) :=
  ⟨rfl, rfl, rfl, .refl s⟩

theorem advanced_complete_dropTop_setReg (s : State) (r : Reg) (y : Word) (d : Bool) :
    Advanced d s (complete (dropTop (s.setReg r y)) d) :=
  ⟨rfl, rfl, rfl, .refl s⟩

/-- Settles O21: the words of PUSH, its overflow, and the state it completes in, whose one changed slot reads by the
two laws of a pushed word. -/
theorem pushStoresAtStackPointer : Obligations.PushStoresAtStackPointer := fun s val flag w3 =>
  ⟨decodeWords_push val flag w3,
    fun hfull => raises_of_exec (exec_push_full hfull.ge),
    fun hroom => ⟨_, exec_push_below hroom, stackWord_pushWord_self s _, rfl,
      fun _ hk => stackWord_pushWord_other s _ hk, advanced_complete_pushWord s _ _, fun _ => rfl, fun _ => rfl,
      rfl, rfl⟩⟩

/-- Settles O22: the words of POP, its two faults in their order, and the state it completes in: a register written
and `sp` lowered, with no slot touched. -/
theorem popTakesStackTop : Obligations.PopTakesStackTop := fun s rd w2 w3 =>
  ⟨decodeWords_pop rd w2 w3,
    fun hrd => raises_of_exec (exec_pop_out hrd),
    fun _ hr hempty => raises_of_exec (exec_pop_empty hr hempty),
    fun r hr hsp => ⟨_, exec_pop_nonempty hr hsp, reg_setReg_self s r _, rfl, fun _ => rfl,
      advanced_complete_dropTop_setReg s r _ false, fun _ hq => reg_setReg_other s _ hq, fun _ => rfl, rfl, rfl⟩⟩

/-! ### Law (a): a register pushed and popped (R84) -/

@[simp] theorem setReg_reg_self (s : State) (r : Reg) : s.setReg r (s.reg r) = s := by
  cases r <;> rfl

theorem exec_push_register {s : State} {rd flag : Word} {r : Reg} (hr : rd.toInt = r.index) (hflag : flag.toInt ≠ 0)
    (hroom : s.sp < s.stackCap) :
    exec (.push rd flag) s = .next (complete (pushWord s (s.reg r)) false) := by
  rw [exec_push_below hroom, resolve_of_set s rd hflag, regRead_of_index s hr]

/-- A POP into the register whose value is on top leaves the register file as it is. -/
theorem exec_pop_of_top_eq_reg {s : State} {rd : Word} {r : Reg} (hr : rd.toInt = r.index) (hsp : 0 < s.sp)
    (htop : stackWord s (s.sp - 1) = s.reg r) :
    exec (.pop rd) s = .next (complete (dropTop s) false) := by
  rw [exec_pop_nonempty hr hsp, htop, setReg_reg_self]

theorem execAll_push_pop_register {s : State} {rd flag : Word} {r : Reg} (hr : rd.toInt = r.index)
    (hflag : flag.toInt ≠ 0) (hroom : s.sp < s.stackCap) :
    execAll [.push rd flag, .pop rd] s =
      .next (complete (dropTop (complete (pushWord s (s.reg r)) false)) false) := by
  have hpop := exec_pop_of_top_eq_reg (s := complete (pushWord s (s.reg r)) false) hr (Nat.succ_pos s.sp)
    (stackWord_pushWord_self s (s.reg r))
  rw [execAll_cons (exec_push_register hr hflag hroom), execAll_cons hpop, execAll]

/-- Settles O23: the POP finds the value of its own register on top, so the pair writes the slot at `sp` and `pc` and
nothing else. -/
theorem pushThenPopRestores : Obligations.PushThenPopRestores := fun s r _ _ hr hflag hroom =>
  ⟨_, execAll_push_pop_register hr hflag hroom, fun _ => rfl, rfl, fun _ => rfl, ⟨rfl, rfl⟩, by simp, rfl, .refl s,
    fun _ hk => stackWord_pushWord_other s (s.reg r) hk⟩

/-! ### Law (b): values pushed in a row and popped in a row (R84) -/

theorem execAll_append {is : List Instr} {s t : State} (h : execAll is s = .next t) (js : List Instr) :
    execAll (is ++ js) s = execAll js t := by
  induction is generalizing s with
  | nil =>
    cases h
    rfl
  | cons i is ih =>
    obtain ⟨u, hu, -⟩ := exec_answers i s
    rw [execAll_cons hu] at h
    rw [List.cons_append, execAll_cons hu, ih h]

/-- What a row of PUSHes of `vals` makes of `s`: the values stand above the slots that were occupied, in their order,
and registers, RAM and those slots are as before. -/
structure Stacked (vals : List Word) (s t : State) : Prop where
  sp_eq : t.sp = s.sp + vals.length
  slot_eq : ∀ {i v}, vals[i]? = some v → stackWord t (s.sp + i) = v
  below : ∀ j, j < s.sp → stackWord t j = stackWord s j
  regs : RegsKept s t
  ram : RamKept s t

theorem Stacked.nil (s : State) : Stacked [] s s :=
  ⟨rfl, (fun h => nomatch h), fun _ _ => rfl, fun _ => rfl, fun _ => rfl⟩

/-- The value pushed first lies below all that are pushed after it. -/
theorem Stacked.cons {v : Word} {vals : List Word} {s t : State}
    (h : Stacked vals (complete (pushWord s v) false) t) : Stacked (v :: vals) s t where
  sp_eq := h.sp_eq.trans (Nat.add_right_comm s.sp 1 vals.length)
  slot_eq {i w} hw := by
    cases i with
    | zero =>
      obtain rfl : v = w := by simpa using hw
      exact (h.below s.sp (Nat.lt_succ_self s.sp)).trans (stackWord_pushWord_self s v)
    | succ i =>
      exact (congrArg (stackWord t) (Nat.add_right_comm s.sp i 1)).trans (h.slot_eq hw)
  below j hj := (h.below j (Nat.lt_succ_of_lt hj)).trans (stackWord_pushWord_other s v hj.ne)
  regs := h.regs
  ram := h.ram

theorem execAll_pushes {vals : List Word} {s : State} (hroom : s.sp + vals.length ≤ s.stackCap) :
    ∃ t, execAll (vals.map fun v => .push v 0#32) s = .next t ∧ Stacked vals s t := by
  induction vals generalizing s with
  | nil => exact ⟨s, rfl, .nil s⟩
  | cons v vals ih =>
    rw [List.length_cons] at hroom
    have hpush : exec (.push v 0#32) s = .next (complete (pushWord s v) false) := exec_push_below (by omega)
    obtain ⟨t, hrun, hstacked⟩ := ih (s := complete (pushWord s v) false)
      (show s.sp + 1 + vals.length ≤ s.stackCap by omega)
    exact ⟨t, (execAll_cons hpush _).trans hrun, hstacked.cons⟩

/-- A row of POPs into one register leaves in it the last slot reached, and writes no slot, no other register and no
RAM word. -/
theorem execAll_pops {rd : Word} {r : Reg} (hr : rd.toInt = r.index) {k : Nat} {s : State} (hk : k < s.sp) :
    ∃ t, execAll (List.replicate (k + 1) (.pop rd)) s = .next t ∧ t.reg r = stackWord s (s.sp - (k + 1)) ∧
      t.sp = s.sp - (k + 1) ∧ SlotsKept s t ∧ RegsKeptBut r s t ∧ RamKept s t := by
  induction k generalizing s with
  | zero =>
    exact ⟨_, execAll_cons (exec_pop_nonempty hr hk) [], reg_setReg_self s r _, rfl, fun _ => rfl,
      fun _ hq => reg_setReg_other s _ hq, fun _ => rfl⟩
  | succ k ih =>
    have hpop := exec_pop_nonempty (s := s) hr (by omega)
    obtain ⟨t, hrun, hreg, hsp, hslots, hregs, hram⟩ :=
      ih (s := complete (dropTop (s.setReg r (stackWord s (s.sp - 1)))) false) (show k < s.sp - 1 by omega)
    have hdepth : s.sp - 1 - (k + 1) = s.sp - (k + 1 + 1) := by omega
    exact ⟨t, (execAll_cons hpop _).trans hrun, hreg.trans (congrArg (stackWord s) hdepth), hsp.trans hdepth, hslots,
      fun q hq => (hregs q hq).trans (reg_setReg_other s _ hq), hram⟩

/-- Settles O24: the PUSHes stack the values above the occupied slots, and the last of the `k + 1` POPs reaches the
slot of the value `k + 1` places from the end. -/
theorem stackIsLastInFirstOut : Obligations.StackIsLastInFirstOut := by
  intro s vals r rd hr hroom k hk
  obtain ⟨u, hpushes, hstacked⟩ := execAll_pushes hroom
  have husp : u.sp = s.sp + vals.length := hstacked.sp_eq
  obtain ⟨t, hpops, hreg, hsp, hslots, hregs, hram⟩ := execAll_pops (s := u) hr (k := k) (by omega)
  refine ⟨t, (execAll_append hpushes _).trans hpops, ?popped, by rw [hsp, husp],
    fun q hq => (hregs q hq).trans (hstacked.regs q), fun a => (hram a).trans (hstacked.ram a),
    fun j hj => (hslots j).trans (hstacked.below j hj)⟩
  case popped =>
    have hlast := List.getElem?_eq_getElem (l := vals) (i := vals.length - 1 - k) (by omega)
    have hdepth : u.sp - (k + 1) = s.sp + (vals.length - 1 - k) := by omega
    rw [hreg, hdepth, hstacked.slot_eq hlast, hlast]

end Sys2Proof.Machine
end

/-! ## Proofs about load and store: the rules of STO and GET, and the load/store law (43_loadstore.md) -/
section
namespace Sys2Proof.Machine

/-! ### STO and GET (R86, R87) -/

theorem exec_sto_outside {s : State} {addr val flag : Word} (h : AddrOutOfBounds s addr) :
    exec (.sto addr val flag) s = .next (takeFault .memBounds s) :=
  withRamAddr_out h

theorem exec_get_out {s : State} {addr rd : Word} (h : IdOutOfRange rd) :
    exec (.get addr rd) s = .next (takeFault .regIndex s) :=
  withDest_out h

theorem exec_get_outside {s : State} {addr rd : Word} {r : Reg} (hr : rd.toInt = r.index)
    (h : AddrOutOfBounds s addr) : exec (.get addr rd) s = .next (takeFault .memBounds s) := by
  simp only [exec, execGet, withDest_in hr, withRamAddr_out h]

theorem advanced_complete_ramStore (s : State) (a : Nat) (v : Word) (d : Bool) :
    Advanced d s (complete (ramStore s a v) d) :=
  ⟨rfl, rfl, rfl, .refl s⟩

/-- Settles O25: the words of STO, its bounds fault, and the state it completes in, whose one changed RAM word reads by
the two laws of a stored word. -/
theorem stoWritesOneWord : Obligations.StoWritesOneWord := fun s addr val flag =>
  ⟨decodeWords_sto addr val flag,
    fun hout => raises_of_exec (exec_sto_outside hout),
    fun h0 h1 => ⟨_, exec_sto_inside h0 h1, ramWord_ramStore_self s _ _,
      fun _ hb => ramWord_ramStore_other s _ hb, advanced_complete_ramStore s _ _ _, fun _ => rfl,
      ⟨rfl, fun _ => rfl⟩, rfl, rfl⟩⟩

/-- Settles O26: the words of GET, its two faults in their order, and its completion, which is that of an ALU
instruction: one register written. -/
theorem getLoadsOneWord : Obligations.GetLoadsOneWord := fun _ addr rd w3 =>
  ⟨decodeWords_get addr rd w3,
    fun hrd => raises_of_exec (exec_get_out hrd),
    fun _ hr hout => raises_of_exec (exec_get_outside hr hout),
    fun _ hr h0 h1 => completion_of_exec_setReg (result := (· = _)) (exec_get_inside hr h0 h1) rfl⟩

/-! ### A RAM word while nothing is stored to its address (R45) -/

/-- Two addresses from 0 on with the same word index are the same word. -/
theorem addr_eq_of_toNat_eq {a b : Word} (ha : 0 ≤ a.toInt) (hb : 0 ≤ b.toInt)
    (h : a.toInt.toNat = b.toInt.toNat) : a = b :=
  BitVec.eq_of_toInt_eq (by omega)

/-- STO is the only completed form that writes RAM, and it writes at its own address only. -/
theorem Completes.ramWord_eq {i : Instr} {s t : State} {addr : Word} (h : Completes i s t) (h0 : 0 ≤ addr.toInt)
    (hno : ∀ v f, i ≠ .sto addr v f) : ramWord t addr.toInt.toNat = ramWord s addr.toInt.toNat := by
  cases h with
  | stores b val flag hi hb0 hb1 =>
    refine ramWord_ramStore_other s _ fun heq => hno val flag ?_
    rw [hi, addr_eq_of_toNat_eq h0 hb0 heq]
  | _ => rfl

theorem Answers.ramWord_eq {i : Instr} {s t : State} {addr : Word} (h : Answers i s t) (h0 : 0 ≤ addr.toInt)
    (hno : ∀ v f, i ≠ .sto addr v f) : ramWord t addr.toInt.toNat = ramWord s addr.toInt.toNat := by
  rcases h with ⟨c, -, rfl⟩ | hdone
  · exact ramWord_takeFault c s _
  · exact hdone.ramWord_eq h0 hno

/-- What every instruction of a list keeps, the run of the list keeps. -/
theorem execAll_keeps {P : State → Prop} {is : List Instr} {s t : State}
    (hkeep : ∀ i ∈ is, ∀ u v, Answers i u v → P u → P v) (hrun : execAll is s = .next t) (hs : P s) : P t := by
  induction is generalizing s with
  | nil =>
    cases hrun
    exact hs
  | cons i is ih =>
    obtain ⟨u, hu, ha⟩ := exec_answers i s
    rw [execAll_cons hu] at hrun
    exact ih (fun j hj => hkeep j (List.mem_cons_of_mem i hj)) hrun (hkeep i List.mem_cons_self s u ha hs)

theorem Answers.memCap_eq {i : Instr} {s t : State} (h : Answers i s t) : t.memCap = s.memCap := by
  obtain ⟨-, hmemCap, -⟩ := h.paramsKept
  exact hmemCap

theorem execAll_memCap_eq {is : List Instr} {s t : State} (hrun : execAll is s = .next t) : t.memCap = s.memCap :=
  execAll_keeps (P := (·.memCap = s.memCap)) (fun _ _ _ _ ha hu => ha.memCap_eq.trans hu) hrun rfl

theorem execAll_ramWord_eq {is : List Instr} {s t : State} {addr : Word} (h0 : 0 ≤ addr.toInt)
    (hno : ∀ i ∈ is, ∀ v f, i ≠ .sto addr v f) (hrun : execAll is s = .next t) :
    ramWord t addr.toInt.toNat = ramWord s addr.toInt.toNat :=
  execAll_keeps (P := (ramWord · addr.toInt.toNat = ramWord s addr.toInt.toNat))
    (fun i hi _ _ ha hu => (ha.ramWord_eq h0 (hno i hi)).trans hu) hrun rfl

/-! ### The load/store law (R89) -/

/-- After a STO inside RAM and a run without a STO to its address, the address is still inside RAM and holds the
word stored. -/
theorem stored_word_of_execAll {s u : State} {addr val flag : Word} {mid : List Instr} (h0 : 0 ≤ addr.toInt)
    (h1 : addr.toInt < s.memCap) (hno : ∀ i ∈ mid, ∀ v f, i ≠ .sto addr v f)
    (hrun : execAll (.sto addr val flag :: mid) s = .next u) :
    addr.toInt < u.memCap ∧ ramWord u addr.toInt.toNat = (resolve s val flag).value := by
  have hmemCap : u.memCap = s.memCap := execAll_memCap_eq hrun
  rw [execAll_cons (exec_sto_inside h0 h1)] at hrun
  exact ⟨hmemCap ▸ h1, (execAll_ramWord_eq h0 hno hrun).trans (ramWord_ramStore_self s _ _)⟩

theorem execAll_sto_get {s : State} {addr val flag rd : Word} {r : Reg} (hr : rd.toInt = r.index)
    (h0 : 0 ≤ addr.toInt) (h1 : addr.toInt < s.memCap) :
    execAll [.sto addr val flag, .get addr rd] s =
      .next (complete ((complete (ramStore s addr.toInt.toNat (resolve s val flag).value)
        (resolve s val flag).defaulted).setReg r (resolve s val flag).value) false) := by
  rw [execAll_cons (exec_sto_inside h0 h1), execAll_cons (exec_get_inside hr h0 (by simpa using h1)), execAll,
    ramWord_complete, ramWord_ramStore_self]

/-- Settles O27: the word stored still stands when the GET reads it; and in the pair alone the STO writes the RAM word
only, and the GET the register only. -/
theorem storeThenLoad : Obligations.StoreThenLoad := by
  intro s addr val flag rd r hr h0 h1
  refine ⟨fun mid u hno hrun => ?between, ?pair⟩
  case between =>
    obtain ⟨hu1, hword⟩ := stored_word_of_execAll h0 h1 hno hrun
    obtain ⟨t, hget, hreg, -, hregs, hram, hstack, -⟩ :=
      completion_of_exec_setReg (result := (· = _)) (exec_get_inside hr h0 hu1) hword
    exact ⟨t, hget, hreg, hregs, hram, hstack⟩
  case pair =>
    exact ⟨_, execAll_sto_get hr h0 h1, reg_setReg_self _ r _, ramWord_ramStore_self s _ _,
      fun _ hq => reg_setReg_other _ _ hq, fun _ hb => ramWord_ramStore_other s _ hb, rfl, fun _ => rfl⟩

end Sys2Proof.Machine
end

/-! ## Proofs about control: NOP, HLT, END and the undefined opcodes (44_control.md) -/
section
namespace Sys2Proof.Machine

/-! ### A stopped core, sampled by the host (R101, R102, R103) -/

/-- Without a move of the host, a core that is not RUNNING stays as it is. -/
theorem step_idle_of_stopped {s : State} (hmove : s.nextMove = .idle) (hrun : s.run ≠ .running) :
    step s = .next s.consumeMove :=
  step_rest (by simp only [sampleHost, hmove, hrun, and_false, if_false])

theorem step_cancel {s : State} (hmove : s.nextMove = .cancel) : step s = .next (takeCancel s.consumeMove) :=
  step_rest (by simp only [sampleHost, hmove])

/-- RUNNING and HALTED are the run states that `cancel` leaves. -/
theorem takeCancel_of_cancellable {s : State} (hreset : s.inReset = false)
    (hrun : s.run = .running ∨ s.run = .halted) : takeCancel s = { s with run := .cancelled } := by
  rcases hrun with h | h <;> simp [takeCancel, hreset, h]

/-- In the other run states `cancel` is ignored, whether or not reset is held. -/
theorem takeCancel_of_final {s : State} (hrunning : s.run ≠ .running) (hhalted : s.run ≠ .halted) :
    takeCancel s = s := by
  unfold takeCancel
  split_ifs
  · rfl
  · cases h : s.run with
    | running => exact absurd h hrunning
    | halted => exact absurd h hhalted
    | terminated | cancelled | faulted => rfl

/-! ### The control instructions (R90 to R93) -/

section meanings
variable (s : State)

theorem exec_nop : exec .nop s = .next (complete s false) := rfl
theorem exec_hlt : exec .hlt s = .next { complete s false with run := .halted } := rfl
theorem exec_end : exec .end_ s = .next { complete s false with run := .terminated } := rfl
theorem exec_undef (op : Word) :
    exec (.undef op) s = .next { complete s false with warn := s.warn.noteUnknown } := rfl

end meanings

/-- An instruction that completes with no operand resolved has advanced, whichever run state it enters. -/
theorem advanced_complete_run (s : State) (r : RunState) : Advanced false s { complete s false with run := r } :=
  ⟨rfl, rfl, rfl, .refl s⟩

/-- Settles O29: the state NOP answers is that of plain completion. -/
theorem nopOnlyAdvances : Obligations.NopOnlyAdvances := fun s w1 w2 w3 =>
  ⟨decodeWords_nop w1 w2 w3, _, exec_nop s, advanced_complete_run s s.run, fun _ => rfl, fun _ => rfl,
    ⟨rfl, fun _ => rfl⟩, rfl, rfl⟩

/-- Settles O30: completion into HALTED, a run state in which nothing executes and which `cancel` leaves. -/
theorem hltEntersHalted : Obligations.HltEntersHalted := fun s w1 w2 w3 =>
  ⟨decodeWords_hlt w1 w2 w3, _, exec_hlt s, rfl, rfl, advanced_complete_run s .halted, fun _ => rfl, fun _ => rfl,
    ⟨rfl, fun _ => rfl⟩,
    fun hidle => step_idle_of_stopped hidle (by simp),
    fun hcancel hreset => (step_cancel hcancel).trans (congrArg _ (takeCancel_of_cancellable hreset (.inr rfl)))⟩

/-- Settles O31: completion into TERMINATED, a run state in which nothing executes and which `cancel` does not
leave. -/
theorem endTerminates : Obligations.EndTerminates := fun s w1 w2 w3 =>
  ⟨decodeWords_end w1 w2 w3, _, exec_end s, rfl, rfl, advanced_complete_run s .terminated, fun _ => rfl,
    fun _ => rfl, ⟨rfl, fun _ => rfl⟩, fun hmove => hmove.elim
      (fun hidle => step_idle_of_stopped hidle (by simp))
      (fun hcancel => (step_cancel hcancel).trans (congrArg _ (takeCancel_of_final (by simp) (by simp))))⟩

/-- Settles O32: a word in the ranges of R57 decodes to UNDEF, and the meaning of UNDEF is completion with
UNK_OPCODE noted, the same for every opcode word. -/
theorem undefSkipsWithWarning : Obligations.UndefSkipsWithWarning := fun s w0 w1 w2 w3 =>
  ⟨fun hundef => hundef.decodeWords w1 w2 w3, _, exec_undef s w0, rfl, s.warn.noteUnknown_unkOpcode,
    s.warn.noteUnknown_regDefaulted, fun _ => rfl, fun _ => rfl, ⟨rfl, fun _ => rfl⟩, ⟨rfl, rfl⟩, .refl s⟩

end Sys2Proof.Machine
end

/-! ## Proofs about dispatch: the fetch unit, the pc sequencer, and the run-state machine (45_dispatch.md) -/
section
namespace Sys2Proof.Machine

/-! ### The fetch unit (R96) -/

theorem romWord_of_getElem? {s : State} {a : Nat} {v : Word} (h : s.rom[a]? = some v) : romWord s a = v := by
  simp [romWord, h]

/-- The step of a core that runs off the end, with the state that fault entry leaves. -/
theorem step_enters_fetchPastEnd {s : State} (hexe : Executes s) (hpc : s.rom.length < s.pc + 4) :
    ∃ t, step s = .next t ∧ FaultEntered .fetchPastEnd s.consumeMove t :=
  ⟨_, step_executes_past_end hexe hpc, faultEntered_takeFault .fetchPastEnd s.consumeMove⟩

/-- Settles O39: past the end the step is a fault entry; and four words that stand at `pc` are inside the image, so the
fetch unit reads them. -/
theorem fetchReadsFourWords : Obligations.FetchReadsFourWords := by
  refine fun s hexe => ⟨step_enters_fetchPastEnd hexe, fun w0 w1 w2 w3 h0 h1 h2 h3 => ?inside⟩
  case inside =>
    have hpc : s.pc + 3 < s.rom.length := (List.getElem?_eq_some_iff.1 h3).1
    have hinstr : instrAt s = decodeWords w0 w1 w2 w3 := by
      rw [instrAt, romWord_of_getElem? h0, romWord_of_getElem? h1, romWord_of_getElem? h2, romWord_of_getElem? h3]
    rw [← hinstr]
    exact step_executes_inside hexe hpc

/-! ### The pc sequencer (R100) -/

@[simp] theorem takeCancel_pc (s : State) : (takeCancel s).pc = s.pc := by
  rcases takeCancel_cases s with h | h <;> rw [h]

@[simp] theorem takeCancel_cause (s : State) : (takeCancel s).cause = s.cause := by
  rcases takeCancel_cases s with h | h <;> rw [h]

/-- An instruction leaves `pc` where it faults, and else advances it. -/
theorem Answers.pc_cases {i : Instr} {s t : State} (h : Answers i s t) : t.pc = s.pc ∨ t.pc = s.pc + 4 := by
  rcases h with ⟨c, -, rfl⟩ | hdone
  · exact .inl (takeFault_pc c s)
  · exact .inr hdone.pc_eq

/-- Settles O41: of the forms of a step, the release of reset writes 0 and a completed instruction `pc + 4`. -/
theorem pcSequencerHasNoOtherInput : Obligations.PcSequencerHasNoOtherInput := by
  intro s t hstep
  cases steps_of_step hstep with
  | resets image hmove => exact .inr (.inr ⟨rfl, image, hmove⟩)
  | holds => exact .inl rfl
  | cancels => exact .inl (takeCancel_pc s.consumeMove)
  | stays => exact .inl rfl
  | runsOut => exact .inl rfl
  | executes _ hexe _ hans => exact hans.pc_cases.imp_right fun hpc => .inl ⟨hpc, hexe⟩

/-! ### Running off the end -/

theorem Completes.cause_eq {i : Instr} {s t : State} (h : Completes i s t) : t.cause = s.cause := by
  cases h <;> rfl

/-- FETCH_PAST_END is no instruction's own fault (R119). -/
theorem FaultsWith.ne_fetchPastEnd {i : Instr} {s : State} {c : Cause} (h : FaultsWith i s c) : c ≠ .fetchPastEnd := by
  cases h <;> simp

theorem Answers.cause_fetchPastEnd {i : Instr} {s t : State} (h : Answers i s t) (hcause : t.cause = .fetchPastEnd) :
    s.cause = .fetchPastEnd := by
  rcases h with ⟨c, hfault, rfl⟩ | hdone
  · exact absurd hcause hfault.ne_fetchPastEnd
  · exact hdone.cause_eq ▸ hcause

theorem releaseReset_cause_ne_fetchPastEnd (image : List Word) (s : State) :
    (releaseReset image s).cause ≠ .fetchPastEnd := by
  by_cases h : image.length % 4 = 0
  · simp [(releaseReset_status_of_aligned s h).2]
  · simp [(releaseReset_status_of_misaligned s h).2]

/-- Only a fetch past the end raises FETCH_PAST_END (R96, R119). -/
theorem Steps.runsOut_of_cause {s t : State} (h : Steps s t) (hbefore : s.cause ≠ .fetchPastEnd)
    (hafter : t.cause = .fetchPastEnd) :
    Executes s ∧ s.rom.length < s.pc + 4 ∧ t = takeFault .fetchPastEnd s.consumeMove := by
  cases h with
  | resets image => exact absurd hafter (releaseReset_cause_ne_fetchPastEnd image s.consumeMove)
  | holds => exact absurd hafter hbefore
  | cancels => exact absurd ((takeCancel_cause s.consumeMove).symm.trans hafter) hbefore
  | stays => exact absurd hafter hbefore
  | runsOut hexe hpc => exact ⟨hexe, hpc, rfl⟩
  | executes _ _ _ hans => exact absurd (hans.cause_fetchPastEnd hafter) hbefore

/-- An image that a core runs has passed the image-length check (R97). -/
theorem MachineInv.rom_aligned {s : State} (h : MachineInv s) (hrun : s.run = .running) : s.rom.length % 4 = 0 := by
  have hcause : s.cause = .none := by
    by_contra hne
    simp [h.cause_iff.1 hne] at hrun
  by_contra hlen
  simp [h.imageLength_iff.2 hlen] at hcause

/-- With `pc` and the image both aligned, too few words left means none left. -/
theorem MachineInv.pc_eq_of_past_end {s : State} (h : MachineInv s) (hrun : s.run = .running)
    (hpc : s.rom.length < s.pc + 4) : s.pc = s.rom.length := by
  have hrom := h.rom_aligned hrun
  have haligned := h.pc_aligned
  have hle := h.pc_le
  omega

/-- Settles O42: only a fetch past the end raises the cause, and by the alignment of `pc` and of the image it happens
with no word left. -/
theorem runningOffTheEnd : Obligations.RunningOffTheEnd := by
  refine fun s hinv => ⟨fun t hstep hbefore hafter => ?only, fun hexe hpc => ?always⟩
  case only =>
    obtain ⟨⟨-, -, hrun⟩, hpc, rfl⟩ := (steps_of_step hstep).runsOut_of_cause hbefore hafter
    exact ⟨hinv.pc_eq_of_past_end hrun hpc, rfl, rfl⟩
  case always =>
    exact step_enters_fetchPastEnd hexe (by omega)

/-! ### Runs of the machine -/

theorem core_run_succ {s t : State} (h : step s = .next t) (n : Nat) : core.run (n + 1) s = core.run n t := by
  have hcore : core.step s = .next t := h
  simp only [Host.Core.run, hcore]

/-- A state that steps to itself runs to itself. -/
theorem core_run_of_fixed {s : State} (h : step s = .next s) (n : Nat) : core.run n s = .next s := by
  induction n with
  | zero => rfl
  | succ n ih => exact (core_run_succ h n).trans ih

/-! ### HALTED (R101) -/

theorem consumeMove_of_host_nil {s : State} (h : s.host = []) : s.consumeMove = s := by
  cases s
  cases h
  rfl

/-- A core that has stopped, under a host with no move left, steps to itself. -/
theorem step_of_silent_host {s : State} (hhost : s.host = []) (hrun : s.run ≠ .running) : step s = .next s :=
  (step_idle_of_stopped (nextMove_of_host_nil hhost) hrun).trans (congrArg _ (consumeMove_of_host_nil hhost))

/-- `cancel` stops a running or halted core (R103). -/
theorem step_cancel_of_cancellable {s : State} (hmove : s.nextMove = .cancel) (hreset : s.inReset = false)
    (hrun : s.run = .running ∨ s.run = .halted) :
    step s = .next { s.consumeMove with run := .cancelled } :=
  (step_cancel hmove).trans (congrArg _ (takeCancel_of_cancellable hreset hrun))

/-- Settles O43: idling and `cancel` are single steps, and a silent host makes the state a fixed point of the step. -/
theorem haltedStandsStill : Obligations.HaltedStandsStill := by
  intro s hhalted hreset
  have hrun : s.run ≠ .running := by simp [hhalted]
  exact ⟨fun hidle => step_idle_of_stopped hidle hrun,
    fun hcancel => step_cancel_of_cancellable hcancel hreset (.inr hhalted),
    fun hhost => core_run_of_fixed (step_of_silent_host hhost hrun)⟩

/-! ### TERMINATED, CANCELLED and FAULTED (R102) -/

/-- The three run states that only reset leaves (R102). -/
def RunState.Terminal (r : RunState) : Prop := r = .terminated ∨ r = .cancelled ∨ r = .faulted

theorem RunState.Terminal.ne_running {r : RunState} (h : r.Terminal) : r ≠ .running := by
  rcases h with rfl | rfl | rfl <;> simp

theorem RunState.Terminal.ne_halted {r : RunState} (h : r.Terminal) : r ≠ .halted := by
  rcases h with rfl | rfl | rfl <;> simp

/-- In a terminal run state neither idling nor `cancel` changes anything. -/
theorem step_of_terminal {s : State} (hrun : s.run.Terminal) (hmove : s.nextMove = .idle ∨ s.nextMove = .cancel) :
    step s = .next s.consumeMove := by
  rcases hmove with hidle | hcancel
  · exact step_idle_of_stopped hidle hrun.ne_running
  · exact (step_cancel hcancel).trans (congrArg _ (takeCancel_of_final hrun.ne_running hrun.ne_halted))

theorem HostNeverResets.nextMove {s : State} (h : HostNeverResets s) : s.nextMove = .idle ∨ s.nextMove = .cancel := by
  cases hhost : s.host with
  | nil => exact .inl (nextMove_of_host_nil hhost)
  | cons m ms =>
    have hm : s.nextMove = m := by simp [State.nextMove, hhost]
    exact hm ▸ h m (by simp [hhost])

theorem HostNeverResets.consumeMove {s : State} (h : HostNeverResets s) : HostNeverResets s.consumeMove :=
  fun m hm => h m (List.mem_of_mem_tail hm)

/-- Settles O44, by induction on the number of steps, each of which only consumes a move. -/
theorem stoppedStatesAreTerminal : Obligations.StoppedStatesAreTerminal := by
  intro s hrun hhost n
  induction n generalizing s with
  | zero => rfl
  | succ n ih =>
    rw [core_run_succ (step_of_terminal hrun hhost.nextMove), ih s.consumeMove hrun hhost.consumeMove,
      State.consumeMove_host, List.drop_tail]
    rfl

/-- Settles O45: `cancel` is taken in RUNNING and HALTED, and ignored in the terminal run states. -/
theorem cancelBetweenSteps : Obligations.CancelBetweenSteps := fun _ hcancel hreset =>
  ⟨step_cancel_of_cancellable hcancel hreset, fun hrun => step_of_terminal hrun (.inr hcancel)⟩

end Sys2Proof.Machine
end

/-! ## Proofs about exceptions: the faults and their order, and the sticky warnings (60_exceptions.md) -/
section
namespace Sys2Proof.Machine

/-! ### The faults of an instruction, each with its condition (R119, R122 to R125) -/

/-- The destination check comes first in every instruction that names a destination (R66, R128). -/
theorem exec_of_dest_out {i : Instr} {s : State} {rd : Word} (hd : destOf i = some rd) (h : IdOutOfRange rd) :
    exec i s = .next (takeFault .regIndex s) := by
  cases i with
  | mov | add | sub | mul | div | xor | or | and | pop | get =>
    cases hd
    exact withDest_out h
  | nop | hlt | push | sto | end_ | undef => cases hd

/-- Every id in range names a register. -/
theorem exists_reg_of_not_idOutOfRange {rd : Word} (h : ¬ IdOutOfRange rd) : ∃ r : Reg, rd.toInt = r.index :=
  (id_cases rd).resolve_left h

/-- A fault whose condition holds is taken: the converse of `exec_answers`. -/
theorem FaultsWith.exec_eq {i : Instr} {s : State} {c : Cause} (h : FaultsWith i s c) :
    exec i s = .next (takeFault c s) := by
  cases h with
  | regIndex rd hd hout => exact exec_of_dest_out hd hout
  | divZero rd val flag hi hrd hv =>
    obtain ⟨r, hr⟩ := exists_reg_of_not_idOutOfRange hrd
    rw [hi, exec_div, aluInstr_error hr (hv ▸ aluDiv_zero _)]
  | store addr val flag hi hout => rw [hi, exec_sto_outside hout]
  | load addr rd hi hrd hout =>
    obtain ⟨r, hr⟩ := exists_reg_of_not_idOutOfRange hrd
    rw [hi, exec_get_outside hr hout]
  | overflow val flag hi hfull => rw [hi, exec_push_full hfull]
  | underflow rd hi hrd hempty =>
    obtain ⟨r, hr⟩ := exists_reg_of_not_idOutOfRange hrd
    rw [hi, exec_pop_empty hr hempty]

/-- An instruction that ends FAULTED has entered a fault whose condition holds. -/
theorem faultEntry_of_faulted {i : Instr} {s t : State} (hexec : exec i s = .next t) (hrun : s.run ≠ .faulted)
    (hfaulted : t.run = .faulted) : ∃ c, FaultsWith i s c ∧ t = takeFault c s :=
  (answers_of_exec hexec).resolve_right fun hdone => hdone.run_ne_faulted hrun hfaulted

/-- An instruction ends FAULTED with a cause exactly when the condition of that fault holds. -/
theorem faulted_iff_faultsWith {i : Instr} {s t : State} {c : Cause} (hexec : exec i s = .next t)
    (hrun : s.run ≠ .faulted) : t.run = .faulted ∧ t.cause = c ↔ FaultsWith i s c := by
  constructor
  · rintro ⟨hfaulted, rfl⟩
    obtain ⟨c, hfault, rfl⟩ := faultEntry_of_faulted hexec hrun hfaulted
    exact hfault
  · intro hfault
    rw [hfault.exec_eq] at hexec
    cases hexec
    exact ⟨takeFault_run c s, takeFault_cause c s⟩

section conditions
variable {i : Instr} {s : State}

theorem faultsWith_regIndex_iff : FaultsWith i s .regIndex ↔ ∃ rd, destOf i = some rd ∧ IdOutOfRange rd :=
  ⟨fun | .regIndex rd hd h => ⟨rd, hd, h⟩, fun ⟨rd, hd, h⟩ => .regIndex rd hd h⟩

theorem faultsWith_divZero_iff : FaultsWith i s .divZero ↔
    ∃ rd val flag, i = .div rd val flag ∧ ¬ IdOutOfRange rd ∧ (resolve s val flag).value.toInt = 0 :=
  ⟨fun | .divZero rd val flag hi hrd hv => ⟨rd, val, flag, hi, hrd, flag_clear_iff.2 hv⟩,
    fun ⟨rd, val, flag, hi, hrd, hv⟩ => .divZero rd val flag hi hrd (flag_clear_iff.1 hv)⟩

theorem faultsWith_memBounds_iff : FaultsWith i s .memBounds ↔
    (∃ addr val flag, i = .sto addr val flag ∧ AddrOutOfBounds s addr) ∨
      ∃ addr rd, i = .get addr rd ∧ ¬ IdOutOfRange rd ∧ AddrOutOfBounds s addr := by
  constructor
  · rintro (_ | _)
    case store addr val flag hi h => exact .inl ⟨addr, val, flag, hi, h⟩
    case load addr rd hi hrd h => exact .inr ⟨addr, rd, hi, hrd, h⟩
  · rintro (⟨addr, val, flag, hi, h⟩ | ⟨addr, rd, hi, hrd, h⟩)
    · exact .store addr val flag hi h
    · exact .load addr rd hi hrd h

/-- With `sp` in its range, a stack that has no room is exactly full (R21). -/
theorem faultsWith_stackOverflow_iff (hsp : s.sp ≤ s.stackCap) :
    FaultsWith i s .stackOverflow ↔ ∃ val flag, i = .push val flag ∧ s.sp = s.stackCap :=
  ⟨fun | .overflow val flag hi h => ⟨val, flag, hi, hsp.antisymm h⟩,
    fun ⟨val, flag, hi, h⟩ => .overflow val flag hi h.ge⟩

theorem faultsWith_stackUnderflow_iff :
    FaultsWith i s .stackUnderflow ↔ ∃ rd, i = .pop rd ∧ ¬ IdOutOfRange rd ∧ s.sp = 0 :=
  ⟨fun | .underflow rd hi hrd h => ⟨rd, hi, hrd, h⟩, fun ⟨rd, hi, hrd, h⟩ => .underflow rd hi hrd h⟩

end conditions

/-! ### The rules of the faults (R122 to R128) -/

/-- Settles O11: the destination check raises the fault, and it has no other condition. -/
theorem regIndexFaultExactly : Obligations.RegIndexFaultExactly := fun _ _ =>
  ⟨fun _ hd hout => raises_of_exec (exec_of_dest_out hd hout),
    fun _ hexec hrun hfaulted hcause =>
      faultsWith_regIndex_iff.1 ((faulted_iff_faultsWith hexec hrun).1 ⟨hfaulted, hcause⟩)⟩

/-- Settles O34: an instruction and a fetch reach FAULTED through the one fault entry (R126). -/
theorem faultsArePrecise : Obligations.FaultsArePrecise := by
  refine ⟨fun i s t hexec hrun hfaulted => ?instruction, fun s t hexe hpc hstep => ?fetch⟩
  case instruction =>
    obtain ⟨c, hfault, rfl⟩ := faultEntry_of_faulted hexec hrun hfaulted
    obtain ⟨hmem, hne⟩ := hfault.mem
    exact ⟨c, hmem, hne, faultEntered_takeFault c s⟩
  case fetch =>
    rw [step_executes_past_end hexe hpc] at hstep
    cases hstep
    exact faultEntered_takeFault .fetchPastEnd s.consumeMove

/-- Settles O35: each fault is raised exactly under its condition. -/
theorem ownFaultsExactly : Obligations.OwnFaultsExactly := fun _ _ _ hsp hexec hrun =>
  ⟨(faulted_iff_faultsWith hexec hrun).trans faultsWith_divZero_iff,
    (faulted_iff_faultsWith hexec hrun).trans faultsWith_memBounds_iff,
    (faulted_iff_faultsWith hexec hrun).trans (faultsWith_stackOverflow_iff hsp),
    (faulted_iff_faultsWith hexec hrun).trans faultsWith_stackUnderflow_iff⟩

/-- Settles O36: `cancel` is sampled before the fetch, the fetch precedes the instruction, and a destination out of
range leaves no fault but REG_INDEX. -/
theorem faultPriority : Obligations.FaultPriority :=
  ⟨fun _ hcancel hreset hrun => step_cancel_of_cancellable hcancel hreset (.inl hrun),
    fun _ hexe hpc => step_enters_fetchPastEnd hexe hpc,
    fun _ _ _ hd hout => raises_of_exec (exec_of_dest_out hd hout),
    fun _ _ _ hexec hrun _ hne rd hd hout =>
      hne ((faulted_iff_faultsWith hexec hrun).2 (.regIndex rd hd hout)).2⟩

/-! ### What sets and keeps the warnings (R27, R93, R132) -/

/-- Whether an instruction sets UNK_OPCODE when it completes (R93). -/
def setsUnkOpcode : Instr → Bool
  | .undef _ => true
  | _ => false

/-- An instruction with a destination is a defined one. -/
theorem setsUnkOpcode_of_dest {i : Instr} {rd : Word} (hd : destOf i = some rd) : setsUnkOpcode i = false := by
  cases i with
  | undef => cases hd
  | _ => rfl

theorem Completes.unkOpcode_eq {i : Instr} {s t : State} (h : Completes i s t) :
    t.warn.unkOpcode = (s.warn.unkOpcode || setsUnkOpcode i) := by
  cases h with
  | writesReg rd r y hd hr => rw [setsUnkOpcode_of_dest hd, Bool.or_false]; rfl
  | skips op hi => subst hi; exact (Bool.or_true _).symm
  | _ => subst i; exact (Bool.or_false _).symm

/-- What was warned in `s` is warned in `t`. -/
def WarningsKept (s t : State) : Prop :=
  (s.warn.unkOpcode = true → t.warn.unkOpcode = true) ∧ (s.warn.regDefaulted = true → t.warn.regDefaulted = true)

theorem WarningsKept.of_warn_eq {s t : State} (h : t.warn = s.warn) : WarningsKept s t := by
  simp [WarningsKept, h]

/-- An instruction only adds warnings, since each bit is its old value or a reason to set it. -/
theorem Answers.warningsKept {i : Instr} {s t : State} (h : Answers i s t) : WarningsKept s t := by
  rcases h with ⟨c, -, rfl⟩ | hdone
  · exact .of_warn_eq (takeFault_warn c s)
  · exact ⟨fun hset => by simp [hdone.unkOpcode_eq, hset], fun hset => by simp [hdone.regDefaulted_eq, hset]⟩

@[simp] theorem takeCancel_warn (s : State) : (takeCancel s).warn = s.warn := by
  rcases takeCancel_cases s with h | h <;> rw [h]

/-- Of the forms of a step, only the release of reset clears a warning. -/
theorem Steps.warningsKept {s t : State} (h : Steps s t) (hno : ∀ image, s.nextMove ≠ .releaseReset image) :
    WarningsKept s t := by
  cases h with
  | resets image hmove => exact absurd hmove (hno image)
  | cancels => exact .of_warn_eq (takeCancel_warn s.consumeMove)
  | holds | stays | runsOut => exact .of_warn_eq rfl
  | executes _ _ _ hans => exact hans.warningsKept

/-! ### Nothing depends on the warnings (R132) -/

/-- An operation answers a next state, and the same but for the warnings whatever the warnings were. -/
def IgnoresWarnings (f : State → Result) : Prop :=
  ∀ (s : State) (w : Warn), ∃ t w', f s = .next t ∧ f { s with warn := w } = .next { t with warn := w' }

theorem aluInstr_ignoresWarnings (op : Word → Word → Except Cause Word) (rd val flag : Word) :
    IgnoresWarnings (aluInstr op rd val flag) := by
  intro s w
  rcases id_cases rd with hout | ⟨r, hr⟩
  · exact ⟨_, _, aluInstr_out hout, aluInstr_out hout⟩
  · cases hop : op (s.reg r) (resolve s val flag).value with
    | error c => exact ⟨_, _, aluInstr_error hr hop, aluInstr_error hr hop⟩
    | ok y => exact ⟨_, _, aluInstr_ok hr hop, aluInstr_ok hr hop⟩

theorem exec_push_ignoresWarnings (val flag : Word) : IgnoresWarnings (exec (.push val flag)) := by
  intro s w
  rcases Nat.lt_or_ge s.sp s.stackCap with hroom | hfull
  · exact ⟨_, _, exec_push_below hroom, exec_push_below hroom⟩
  · exact ⟨_, _, exec_push_full hfull, exec_push_full hfull⟩

theorem exec_pop_ignoresWarnings (rd : Word) : IgnoresWarnings (exec (.pop rd)) := by
  intro s w
  rcases id_cases rd with hout | ⟨r, hr⟩
  · exact ⟨_, _, exec_pop_out hout, exec_pop_out hout⟩
  · rcases Nat.eq_zero_or_pos s.sp with hempty | hsp
    · exact ⟨_, _, exec_pop_empty hr hempty, exec_pop_empty hr hempty⟩
    · exact ⟨_, _, exec_pop_nonempty hr hsp, exec_pop_nonempty hr hsp⟩

theorem exec_sto_ignoresWarnings (addr val flag : Word) : IgnoresWarnings (exec (.sto addr val flag)) := by
  intro s w
  rcases addr_cases s addr with hout | ⟨h0, h1⟩
  · exact ⟨_, _, exec_sto_outside hout, exec_sto_outside hout⟩
  · exact ⟨_, _, exec_sto_inside h0 h1, exec_sto_inside h0 h1⟩

theorem exec_get_ignoresWarnings (addr rd : Word) : IgnoresWarnings (exec (.get addr rd)) := by
  intro s w
  rcases id_cases rd with hout | ⟨r, hr⟩
  · exact ⟨_, _, exec_get_out hout, exec_get_out hout⟩
  · rcases addr_cases s addr with hout | ⟨h0, h1⟩
    · exact ⟨_, _, exec_get_outside hr hout, exec_get_outside hr hout⟩
    · exact ⟨_, _, exec_get_inside hr h0 h1, exec_get_inside hr h0 h1⟩

/-- No instruction reads the warnings. -/
theorem exec_ignoresWarnings (i : Instr) : IgnoresWarnings (exec i) := by
  cases i with
  | mov | add | sub | mul | div | xor | or | and =>
    intro s w
    simp only [exec_mov, exec_add, exec_sub, exec_mul, exec_div, exec_xor, exec_or, exec_and]
    exact aluInstr_ignoresWarnings _ _ _ _ s w
  | push val flag => exact exec_push_ignoresWarnings val flag
  | pop rd => exact exec_pop_ignoresWarnings rd
  | sto addr val flag => exact exec_sto_ignoresWarnings addr val flag
  | get addr rd => exact exec_get_ignoresWarnings addr rd
  | nop | hlt | end_ | undef => exact fun _ _ => ⟨_, _, rfl, rfl⟩

/-- Settles O37: fault entry keeps the warnings and each completed form adds its own; no step but a release of reset
clears one; and no instruction reads them. -/
theorem warningsAreStickyAndInert : Obligations.WarningsAreStickyAndInert := by
  refine ⟨fun i s t hexec hrun => ?sets, fun s t hstep hno => (steps_of_step hstep).warningsKept hno,
    fun i s t w hexec => ?inert⟩
  case sets =>
    rcases answers_of_exec hexec with ⟨c, -, rfl⟩ | hdone
    · exact ⟨fun _ => takeFault_warn c s, fun hne => absurd (takeFault_run c s) hne⟩
    · exact ⟨fun hfaulted => absurd hfaulted (hdone.run_ne_faulted hrun),
        fun _ => ⟨hdone.unkOpcode_eq, hdone.regDefaulted_eq⟩⟩
  case inert =>
    obtain ⟨u, w', hu, hw⟩ := exec_ignoresWarnings i s w
    rw [hexec] at hu
    cases hu
    exact ⟨w', hw⟩

end Sys2Proof.Machine
end

/-! ## Proofs about a release of reset: what it takes over from the run it ends (70_reset_and_hazards.md) -/
section
namespace Sys2Proof.Machine

/-- A release of reset reads of the state before it only the sizes, the host's moves and the number of the launch; what
the program could write is not among them (R32, R139). -/
theorem releaseReset_congr {s t : State} (image : List Word) (hmemCap : s.memCap = t.memCap)
    (hstackCap : s.stackCap = t.stackCap) (hhost : s.host = t.host) (hlaunch : s.launchNo = t.launchNo) :
    releaseReset image s = releaseReset image t := by
  simp only [releaseReset, hmemCap, hstackCap, hhost, hlaunch]

/-- Settles O50: both steps are the release of reset, and the two states agree on all that a release reads. -/
theorem nothingSurvivesReset : Obligations.NothingSurvivesReset := by
  intro s t image hs ht hmemCap hstackCap hhost hlaunch
  have hrelease : releaseReset image s.consumeMove = releaseReset image t.consumeMove :=
    releaseReset_congr image hmemCap hstackCap hhost hlaunch
  rw [step_releaseReset hs, step_releaseReset ht, hrelease]

end Sys2Proof.Machine
end

/-! ## Proofs about the encoder: it inverts the decoder, up to ignored words (30_encoding.md) -/
section
namespace Sys2Proof

/-- The case split over the opcode map: one case per defined opcode word, and one for every other word (R55, R57). -/
theorem opcode_cases {motive : Word → Prop} (nop : motive 0#32) (mov : motive 1#32) (add : motive 2#32)
    (sub : motive 3#32) (mul : motive 4#32) (div : motive 5#32) (xor : motive 6#32) (or : motive 7#32)
    (and : motive 8#32) (hlt : motive 9#32) (push : motive 10#32) (pop : motive 11#32) (sto : motive 12#32)
    (get : motive 13#32) (end_ : motive 255#32) (undef : ∀ op, op ∉ definedOpcodes → motive op) (w0 : Word) :
    motive w0 := by
  by_cases h : w0 ∈ definedOpcodes
  · rcases mem_definedOpcodes.1 h with
      rfl | rfl | rfl | rfl | rfl | rfl | rfl | rfl | rfl | rfl | rfl | rfl | rfl | rfl | rfl <;> assumption
  · exact undef w0 h

/-- Settles O5: the four words of a defined instruction are a row of the opcode map, and a well-formed UNDEF keeps an
opcode word outside it. -/
theorem decodeInvertsEncode : Obligations.DecodeInvertsEncode := by
  intro i rest hwf
  cases i with
  | undef op =>
    have hop : op ∉ definedOpcodes := Instr.wellFormed_undef.1 hwf
    simp [encode, decode, decodeWords_undefined hop]
  | _ => rfl

/-- Settles O6, by the opcode word: the operand words its format keeps come back, the others as 0. -/
theorem encodeInvertsDecode : Obligations.EncodeInvertsDecode := by
  intro w0 w1 w2 w3
  cases w0 using opcode_cases with
  | mov | add | sub | mul | div | xor | or | and | sto =>
    exact ⟨w1, w2, w3, rfl, rfl, .inl rfl, .inl rfl, .inl rfl⟩
  | push | get => exact ⟨w1, w2, 0#32, rfl, rfl, .inl rfl, .inl rfl, .inr rfl⟩
  | pop => exact ⟨w1, 0#32, 0#32, rfl, rfl, .inl rfl, .inr rfl, .inr rfl⟩
  | nop | hlt | end_ => exact ⟨0#32, 0#32, 0#32, rfl, rfl, .inr rfl, .inr rfl, .inr rfl⟩
  | undef _ hop =>
    rw [decodeWords_undefined hop]
    exact ⟨0#32, 0#32, 0#32, rfl, decodeWords_undefined hop .., .inr rfl, .inr rfl, .inr rfl⟩

/-- Settles O7: UNDEF is decoded only from an opcode word outside the opcode map. -/
theorem decodedIsWellFormed : Obligations.DecodedIsWellFormed := by
  intro w0 w1 w2 w3
  cases w0 using opcode_cases with
  | undef _ hop => exact decodeWords_undefined hop w1 w2 w3 ▸ Instr.wellFormed_undef.2 hop
  | _ => rfl

/-- Settles O8: the decoder accepts a list as soon as it has a fourth word. -/
theorem shortListsAreRejected : Obligations.ShortListsAreRejected
  | [] | [_] | [_, _] | [_, _, _] => by simp [decode]
  | _ :: _ :: _ :: _ :: _ => by simp [decode]

end Sys2Proof
end

/-! ## Proofs about the step: it answers, it runs the instruction at `pc`, and what ends a run (45_dispatch.md) -/
section
namespace Sys2Proof.Machine

/-- Settles O33: exec and step answer one of the forms that the model's laws list, each of them a next state. -/
theorem everythingAnswersNext : Obligations.EverythingAnswersNext :=
  ⟨fun i s => (exec_answers i s).imp fun _ ⟨h, _⟩ => h, fun s => (step_steps s).imp fun _ ⟨h, _⟩ => h⟩

/-! ### The instruction at `pc` (R95, R99) -/

theorem Executes.inReset_eq {s : State} : Executes s → s.inReset = false
  | ⟨_, hreset, _⟩ => hreset

theorem Executes.run_eq {s : State} : Executes s → s.run = .running
  | ⟨_, _, hrun⟩ => hrun

theorem rom_drop_eq_cons {s : State} {a : Nat} (h : a < s.rom.length) :
    s.rom.drop a = romWord s a :: s.rom.drop (a + 1) := by
  simp [romWord, h]

/-- Inside the image the decoder, given the words from `pc` on, answers the instruction at `pc`. -/
theorem decode_rom_drop_pc {s : State} (h : s.pc + 4 ≤ s.rom.length) :
    decode (s.rom.drop s.pc) = .ok (instrAt s, s.rom.drop (s.pc + 4)) := by
  rw [rom_drop_eq_cons (by omega), rom_drop_eq_cons (by omega), rom_drop_eq_cons (by omega),
    rom_drop_eq_cons (by omega)]
  rfl

/-- Settles O1: where the words from `pc` on decode, they are four at least, so the fetch unit reads them. -/
theorem stepRunsDecodedInstruction : Obligations.StepRunsDecodedInstruction := by
  intro s i rest hexe hdecode
  rcases Nat.lt_or_ge s.rom.length (s.pc + 4) with hpc | hpc
  · have hshort : decode (s.rom.drop s.pc) = .error .truncated :=
      (shortListsAreRejected _).2 (by rw [List.length_drop]; omega)
    simp [hshort] at hdecode
  · rw [decode_rom_drop_pc hpc] at hdecode
    cases hdecode
    exact step_executes_inside hexe hpc

/-! ### Changes of the run state (R91, R92, R103) -/

/-- Of the completed forms, only those of HLT and END write the run state. -/
theorem Completes.run_cases {i : Instr} {s t : State} (h : Completes i s t) :
    t.run = s.run ∨ (i = .hlt ∧ t.run = .halted) ∨ (i = .end_ ∧ t.run = .terminated) := by
  cases h with
  | halts hi => exact .inr (.inl ⟨hi, rfl⟩)
  | ends hi => exact .inr (.inr ⟨hi, rfl⟩)
  | _ => exact .inl rfl

/-- Sampling `cancel` takes a running or halted core to CANCELLED, or leaves the run state. -/
theorem takeCancel_run_cases (s : State) :
    (takeCancel s).run = s.run ∨ ((s.run = .running ∨ s.run = .halted) ∧ (takeCancel s).run = .cancelled) := by
  by_cases hrun : s.run = .running ∨ s.run = .halted
  · rcases takeCancel_cases s with h | h
    · exact .inl (by rw [h])
    · exact .inr ⟨hrun, by rw [h]⟩
  · obtain ⟨hrunning, hhalted⟩ := not_or.1 hrun
    exact .inl (by rw [takeCancel_of_final hrunning hhalted])

/-- Settles O46, by the forms of a step: a form that can change the run state is one of the events listed. -/
theorem runStateChangesOnlyBy : Obligations.RunStateChangesOnlyBy := by
  intro s t hstep hne
  cases steps_of_step hstep with
  | resets image hmove => exact .inl ⟨image, hmove⟩
  | holds | stays => exact absurd rfl hne
  | cancels hmove => exact .inr (.inl ⟨hmove, (takeCancel_run_cases s.consumeMove).resolve_left hne⟩)
  | runsOut hexe => exact .inr (.inr (.inr (.inr ⟨hexe, rfl⟩)))
  | executes _ hexe hpc hans =>
    have hdecode := decode_rom_drop_pc hpc
    rcases hans with ⟨c, -, rfl⟩ | hdone
    · exact .inr (.inr (.inr (.inr ⟨hexe, rfl⟩)))
    · rcases hdone.run_cases with hrun | ⟨hi, hrun⟩ | ⟨hi, hrun⟩
      · exact absurd hrun hne
      · exact .inr (.inr (.inl ⟨hexe, hrun, _, hi ▸ hdecode⟩))
      · exact .inr (.inr (.inr (.inl ⟨hexe, hrun, _, hi ▸ hdecode⟩)))

/-! ### What the host can conclude at the end of a run (R106, R132) -/

theorem Warn.bits_eq_zero_iff {w : Warn} : w.bits = 0 ↔ w.unkOpcode = false ∧ w.regDefaulted = false := by
  obtain ⟨unk, defaulted⟩ := w
  cases unk <;> cases defaulted <;> decide

/-- A warning that was set has been kept, so a state that shows none comes from one that shows none. -/
theorem WarningsKept.bits_eq_zero {s t : State} (h : WarningsKept s t) (ht : t.warn.bits = 0) : s.warn.bits = 0 := by
  simp only [Warn.bits_eq_zero_iff, ← Bool.not_eq_true] at ht ⊢
  exact ht.imp (mt h.1) (mt h.2)

/-- A step that does not end FAULTED, and is no release of reset, did not start there and wrote no cause. -/
theorem Steps.not_faulted {s t : State} (h : Steps s t) (hno : ∀ image, s.nextMove ≠ .releaseReset image)
    (ht : t.run ≠ .faulted) : s.run ≠ .faulted ∧ t.cause = s.cause := by
  cases h with
  | resets image hmove => exact absurd hmove (hno image)
  | holds | stays => exact ⟨ht, rfl⟩
  | cancels =>
    refine ⟨fun hs => ht ?_, takeCancel_cause s.consumeMove⟩
    rw [takeCancel_of_final] <;> simp [hs]
  | runsOut => exact absurd rfl ht
  | executes _ hexe _ hans =>
    rcases hans with ⟨c, -, rfl⟩ | hdone
    · exact absurd rfl ht
    · exact ⟨by simp [hexe.run_eq], hdone.cause_eq⟩

/-- Settles O38: only the release of reset leaves FAULTED, or clears a cause or a warning. -/
theorem endOfRunTellsAll : Obligations.EndOfRunTellsAll := by
  rintro s t hstep hno ⟨hrun, hcause, hwarn⟩
  have hsteps : Steps s t := steps_of_step hstep
  obtain ⟨hrun', hcause'⟩ := hsteps.not_faulted hno hrun
  exact ⟨hrun', hcause' ▸ hcause, (hsteps.warningsKept hno).bits_eq_zero hwarn⟩

end Sys2Proof.Machine
end

/-! ## Proofs about reset: while it is held, and what its release frees (50_interfaces.md, 70_reset_and_hazards.md) -/
section
namespace Sys2Proof.Machine

theorem step_holdReset {s : State} (hmove : s.nextMove = .holdReset) :
    step s = .next { s.consumeMove with inReset := true } :=
  step_rest (by simp only [sampleHost, hmove])

theorem takeCancel_of_held {s : State} (hreset : s.inReset = true) : takeCancel s = s :=
  if_pos hreset

/-- While reset is held a step short of the release only consumes a move (R108, R138). -/
theorem step_of_held {s : State} (hreset : s.inReset = true) (hno : ∀ image, s.nextMove ≠ .releaseReset image) :
    step s = .next s.consumeMove := by
  cases hmove : s.nextMove with
  | releaseReset image => exact absurd hmove (hno image)
  | holdReset => rw [step_holdReset hmove, ← hreset]; rfl
  | cancel => exact (step_cancel hmove).trans (congrArg _ (takeCancel_of_held hreset))
  | idle => exact step_rest (by simp [sampleHost, hmove, hreset])

/-- Settles O51: asserting reset writes the held input, and while it is held nothing else is written. -/
theorem heldResetExecutesNothing : Obligations.HeldResetExecutesNothing :=
  ⟨fun _ => step_holdReset, fun _ => step_of_held⟩

/-- Settles O49: the release lists no word of RAM or of the stack array, so each reads as the free value. -/
theorem releasePlacesImageAndFreesMemory : Obligations.ReleasePlacesImageAndFreesMemory := fun s image hmove =>
  ⟨releaseReset image s.consumeMove, step_releaseReset hmove, rfl, rfl, rfl, rfl, fun _ => rfl, fun _ => rfl⟩

end Sys2Proof.Machine
end

/-! ## Proofs about the invariant: it holds after every reset, and every step keeps it (10_state.md) -/
section
namespace Sys2Proof.Machine

/-! ### Reset -/

/-- With RAM and stack unwritten and both pointers at 0, what is left of the invariant is the sizes and the status. -/
theorem MachineInv.of_fresh {s : State} (hmemCap : 1 ≤ s.memCap) (hstackCap : 1 ≤ s.stackCap) (hmem : s.mem = [])
    (hstk : s.stk = []) (hsp : s.sp = 0) (hpc : s.pc = 0) (hcause : s.cause ≠ .none ↔ s.run = .faulted)
    (himage : s.cause = .imageLength ↔ s.rom.length % 4 ≠ 0) : MachineInv s where
  memCap_pos := hmemCap
  stackCap_pos := hstackCap
  ram_wf := by simp [hmem]
  ram_inside := by simp [hmem]
  stk_wf := by simp [hstk]
  stk_inside := by simp [hstk]
  sp_le := by simp [hsp]
  occupied_written := by simp [hsp]
  pc_aligned := by simp [hpc]
  pc_le := by simp [hpc]
  cause_iff := hcause
  imageLength_iff := himage
  imageLength_pc _ := hpc

/-- Settles O53: reset is a fresh state, RUNNING with an image of length 0. -/
theorem resetMeetsInvariant : Obligations.ResetMeetsInvariant :=
  .of_fresh (by decide) (by decide) rfl rfl rfl rfl (by decide) (by decide)

/-- Settles O54: a release leaves a fresh state, and its image-length check gives run state and cause together (R97). -/
theorem releaseMeetsInvariant : Obligations.ReleaseMeetsInvariant := by
  intro s image hmemCap hstackCap
  by_cases hlen : image.length % 4 = 0
  · obtain ⟨hrun, hcause⟩ := releaseReset_status_of_aligned s hlen
    exact .of_fresh hmemCap hstackCap rfl rfl rfl rfl (by simp [hrun, hcause]) (by simp [hcause, hlen])
  · obtain ⟨hrun, hcause⟩ := releaseReset_status_of_misaligned s hlen
    exact .of_fresh hmemCap hstackCap rfl rfl rfl rfl (by simp [hrun, hcause]) (by simp [hcause, hlen])

/-! ### What each operation on the state keeps -/

section operations
variable {s : State}

theorem MachineInv.consumeMove (h : MachineInv s) : MachineInv s.consumeMove := { h with }

theorem MachineInv.setInReset (h : MachineInv s) (b : Bool) : MachineInv { s with inReset := b } := { h with }

theorem MachineInv.setWarn (h : MachineInv s) (w : Warn) : MachineInv { s with warn := w } := { h with }

theorem MachineInv.setReg (h : MachineInv s) (r : Reg) (v : Word) : MachineInv (s.setReg r v) := { h with }

theorem MachineInv.ramStore {a : Nat} (h : MachineInv s) (v : Word) (ha : a < s.memCap) :
    MachineInv (ramStore s a v) :=
  { h with
    ram_wf := Memory.write_wf a v h.ram_wf
    ram_inside := Memory.write_inside v ha h.ram_inside }

/-- A PUSH with room writes the slot that becomes occupied (R20, R82). -/
theorem MachineInv.pushWord (h : MachineInv s) (v : Word) (hroom : s.sp < s.stackCap) : MachineInv (pushWord s v) :=
  { h with
    stk_wf := Memory.write_wf s.sp v h.stk_wf
    stk_inside := Memory.write_inside v hroom h.stk_inside
    sp_le := hroom
    occupied_written := fun i hi => Memory.isSome_read_write s.stk s.sp i v
      ((Nat.lt_succ_iff_lt_or_eq.1 hi).symm.imp_right (h.occupied_written i)) }

theorem MachineInv.dropTop (h : MachineInv s) : MachineInv (dropTop s) :=
  { h with
    sp_le := (Nat.sub_le s.sp 1).trans h.sp_le
    occupied_written := fun i hi => h.occupied_written i (Nat.lt_of_lt_of_le hi (Nat.sub_le s.sp 1)) }

/-- A running core has no cause (R26). -/
theorem MachineInv.cause_eq_none (h : MachineInv s) (hrun : s.run ≠ .faulted) : s.cause = .none :=
  not_not.1 (mt h.cause_iff.1 hrun)

/-- Completion of an instruction inside the image: `pc` stays aligned and does not pass the end (R17). -/
theorem MachineInv.complete (h : MachineInv s) (d : Bool) (hrun : s.run ≠ .faulted) (hpc : s.pc + 4 ≤ s.rom.length) :
    MachineInv (complete s d) :=
  { h with
    pc_aligned := (Nat.add_mod_right s.pc 4).trans h.pc_aligned
    pc_le := hpc
    imageLength_pc := fun himage => by simp [h.cause_eq_none hrun] at himage }

/-- A run state other than FAULTED may replace another. -/
theorem MachineInv.setRun (h : MachineInv s) (hrun : s.run ≠ .faulted) {r : RunState} (hr : r ≠ .faulted) :
    MachineInv { s with run := r } :=
  { h with cause_iff := iff_of_false (not_not.2 (h.cause_eq_none hrun)) hr }

/-- A running core takes a fault of its own: its image has passed the length check, so the cause is another (R97). -/
theorem MachineInv.takeFault {c : Cause} (h : MachineInv s) (hrun : s.run = .running) (hnone : c ≠ .none)
    (himage : c ≠ .imageLength) : MachineInv (takeFault c s) :=
  { h with
    cause_iff := iff_of_true hnone rfl
    imageLength_iff := iff_of_false himage (not_not.2 (h.rom_aligned hrun))
    imageLength_pc := fun hc => absurd hc himage }

theorem MachineInv.takeCancel (h : MachineInv s) : MachineInv (takeCancel s) := by
  by_cases hrun : s.run = .faulted
  · rw [takeCancel_of_final] <;> simp [hrun, h]
  · rcases takeCancel_cases s with hc | hc <;> rw [hc]
    · exact h
    · exact h.setRun hrun (by simp)

end operations

/-! ### What an instruction and a step keep -/

/-- IMAGE_LENGTH is no instruction's own fault (R119, R120). -/
theorem FaultsWith.ne_imageLength {i : Instr} {s : State} {c : Cause} (h : FaultsWith i s c) : c ≠ .imageLength := by
  cases h <;> simp

theorem Completes.keeps_inv {i : Instr} {s t : State} (h : Completes i s t) (hinv : MachineInv s)
    (hrun : s.run = .running) (hpc : s.pc + 4 ≤ s.rom.length) : MachineInv t := by
  have hok : s.run ≠ .faulted := by simp [hrun]
  cases h with
  | writesReg rd r y => exact (hinv.setReg r y).complete _ hok hpc
  | pops rd r => exact (hinv.setReg r _).dropTop.complete _ hok hpc
  | pushes val flag _ hroom => exact (hinv.pushWord _ hroom).complete _ hok hpc
  | stores addr val flag _ h0 h1 => exact (hinv.ramStore _ (by omega)).complete _ hok hpc
  | nothing => exact hinv.complete _ hok hpc
  | halts | ends => exact (hinv.complete _ hok hpc).setRun hok (by simp)
  | skips => exact (hinv.complete _ hok hpc).setWarn _

/-- Settles O55, by the forms of a step: reset starts the invariant afresh, and each of the others is made of operations
that keep it. -/
theorem stepKeepsInvariant : Obligations.StepKeepsInvariant := by
  intro s t hinv hstep
  have hinv' : MachineInv s.consumeMove := hinv.consumeMove
  cases steps_of_step hstep with
  | resets image => exact releaseMeetsInvariant s.consumeMove image hinv.memCap_pos hinv.stackCap_pos
  | holds => exact hinv'.setInReset true
  | cancels => exact hinv'.takeCancel
  | stays => exact hinv'
  | runsOut hexe => exact hinv'.takeFault hexe.run_eq (by simp) (by simp)
  | executes _ hexe hpc hans =>
    rcases hans with ⟨c, hfault, rfl⟩ | hdone
    · obtain ⟨-, hne⟩ := hfault.mem
      exact hinv'.takeFault hexe.run_eq hne hfault.ne_imageLength
    · exact hdone.keeps_inv hinv' hexe.run_eq hpc

/-! ### The widths of `pc` and `sp` (R6) -/

/-- A width that holds `n` has at least `widthFor n` bits. -/
theorem widthFor_le {n k : Nat} (hk : 1 ≤ k) (h : n < 2 ^ k) : widthFor n ≤ k := by
  rcases Nat.eq_zero_or_pos n with rfl | hn
  · exact hk
  · exact (Nat.log2_lt hn.ne').2 h

/-- What a width holds, the width of anything larger holds. -/
theorem mod_two_pow_widthFor {m n : Nat} (h : m ≤ n) : m % 2 ^ widthFor n = m :=
  Nat.mod_eq_of_lt (h.trans_lt (lt_two_pow_widthFor n))

/-- Settles O60: `widthFor` is the smallest width, and the invariant bounds each register by what its width holds. -/
theorem pcAndSpFitTheirWidths : Obligations.PcAndSpFitTheirWidths :=
  ⟨fun _ => ⟨widthFor_pos _, lt_two_pow_widthFor _, fun _ => widthFor_le,
      widthFor_pos _, lt_two_pow_widthFor _, fun _ => widthFor_le⟩,
    rfl,
    fun s hinv => ⟨s.pcBits_toNat.trans (mod_two_pow_widthFor hinv.pc_le),
      s.spBits_toNat.trans (mod_two_pow_widthFor hinv.sp_le)⟩⟩

end Sys2Proof.Machine
end

/-! ## Proofs about the stack array: stale slots are unobservable (10_state.md, 42_stack.md) -/
section
namespace Sys2Proof.Machine

/-- The form to compute with: `t` is `s` with another stack array, of the same occupied slots. -/
theorem SameButStale.exists_stk {s t : State} (h : SameButStale s t) :
    ∃ k, t = { s with stk := k } ∧ ∀ i, i < s.sp → stackWord { s with stk := k } i = stackWord s i := by
  obtain ⟨ht, hslots⟩ := h
  exact ⟨t.stk, ht, ht ▸ hslots⟩

/-- An operation answers, from two states that differ at most in stale slots, two that do. -/
def IgnoresStale (f : State → Result) : Prop :=
  ∀ s t : State, SameButStale s t → ∃ s' t', f s = .next s' ∧ f t = .next t' ∧ SameButStale s' t'

/-- Both states push the same word at the same `sp`, so the slot that becomes occupied reads alike in both. -/
theorem SameButStale.complete_pushWord {s : State} {k : Memory}
    (hslots : ∀ i, i < s.sp → stackWord { s with stk := k } i = stackWord s i) (v : Word) (d : Bool) :
    SameButStale (complete (pushWord s v) d) (complete (pushWord { s with stk := k } v) d) := by
  refine ⟨rfl, fun i hi => ?_⟩
  rcases Nat.lt_succ_iff_lt_or_eq.1 hi with hbelow | rfl
  · simp only [stackWord_complete]
    rw [stackWord_pushWord_other s v hbelow.ne, stackWord_pushWord_other { s with stk := k } v hbelow.ne,
      hslots i hbelow]
  · exact (stackWord_pushWord_self { s with stk := k } v).trans (stackWord_pushWord_self s v).symm

theorem aluInstr_ignoresStale (op : Word → Word → Except Cause Word) (rd val flag : Word) :
    IgnoresStale (aluInstr op rd val flag) := by
  intro s t hst
  obtain ⟨k, rfl, hslots⟩ := hst.exists_stk
  rcases id_cases rd with hout | ⟨r, hr⟩
  · exact ⟨_, _, aluInstr_out hout, aluInstr_out hout, rfl, hslots⟩
  · cases hop : op (s.reg r) (resolve s val flag).value with
    | error c => exact ⟨_, _, aluInstr_error hr hop, aluInstr_error hr hop, rfl, hslots⟩
    | ok y => exact ⟨_, _, aluInstr_ok hr hop, aluInstr_ok hr hop, rfl, hslots⟩

theorem exec_push_ignoresStale (val flag : Word) : IgnoresStale (exec (.push val flag)) := by
  intro s t hst
  obtain ⟨k, rfl, hslots⟩ := hst.exists_stk
  rcases Nat.lt_or_ge s.sp s.stackCap with hroom | hfull
  · exact ⟨_, _, exec_push_below hroom, exec_push_below hroom, .complete_pushWord hslots _ _⟩
  · exact ⟨_, _, exec_push_full hfull, exec_push_full hfull, rfl, hslots⟩

/-- POP reads the top slot, which is an occupied one, so both states give the register the same word. -/
theorem exec_pop_ignoresStale (rd : Word) : IgnoresStale (exec (.pop rd)) := by
  intro s t hst
  obtain ⟨k, rfl, hslots⟩ := hst.exists_stk
  rcases id_cases rd with hout | ⟨r, hr⟩
  · exact ⟨_, _, exec_pop_out hout, exec_pop_out hout, rfl, hslots⟩
  · rcases Nat.eq_zero_or_pos s.sp with hempty | hsp
    · exact ⟨_, _, exec_pop_empty hr hempty, exec_pop_empty hr hempty, rfl, hslots⟩
    · have htop : stackWord { s with stk := k } (s.sp - 1) = stackWord s (s.sp - 1) := hslots _ (by omega)
      refine ⟨_, _, exec_pop_nonempty hr hsp, exec_pop_nonempty hr hsp, ?_, fun i hi => ?_⟩
      · rw [htop]; rfl
      · exact hslots i (Nat.lt_of_lt_pred hi)

theorem exec_sto_ignoresStale (addr val flag : Word) : IgnoresStale (exec (.sto addr val flag)) := by
  intro s t hst
  obtain ⟨k, rfl, hslots⟩ := hst.exists_stk
  rcases addr_cases s addr with hout | ⟨h0, h1⟩
  · exact ⟨_, _, exec_sto_outside hout, exec_sto_outside hout, rfl, hslots⟩
  · exact ⟨_, _, exec_sto_inside h0 h1, exec_sto_inside h0 h1, rfl, hslots⟩

theorem exec_get_ignoresStale (addr rd : Word) : IgnoresStale (exec (.get addr rd)) := by
  intro s t hst
  obtain ⟨k, rfl, hslots⟩ := hst.exists_stk
  rcases id_cases rd with hout | ⟨r, hr⟩
  · exact ⟨_, _, exec_get_out hout, exec_get_out hout, rfl, hslots⟩
  · rcases addr_cases s addr with hout | ⟨h0, h1⟩
    · exact ⟨_, _, exec_get_outside hr hout, exec_get_outside hr hout, rfl, hslots⟩
    · exact ⟨_, _, exec_get_inside hr h0 h1, exec_get_inside hr h0 h1, rfl, hslots⟩

/-- No instruction reads a stale slot, nor makes one occupied that it does not write. -/
theorem exec_ignoresStale (i : Instr) : IgnoresStale (exec i) := by
  cases i with
  | mov | add | sub | mul | div | xor | or | and =>
    simp only [IgnoresStale, exec_mov, exec_add, exec_sub, exec_mul, exec_div, exec_xor, exec_or, exec_and]
    exact aluInstr_ignoresStale _ _ _ _
  | push val flag => exact exec_push_ignoresStale val flag
  | pop rd => exact exec_pop_ignoresStale rd
  | sto addr val flag => exact exec_sto_ignoresStale addr val flag
  | get addr rd => exact exec_get_ignoresStale addr rd
  | nop | hlt | end_ | undef =>
    intro s t hst
    obtain ⟨k, rfl, hslots⟩ := hst.exists_stk
    exact ⟨_, _, rfl, rfl, rfl, hslots⟩

/-- Whether `cancel` is taken depends on the run state and on whether reset is held, not on the stack (R103). -/
theorem SameButStale.takeCancel {s t : State} (h : SameButStale s t) :
    SameButStale (takeCancel s) (takeCancel t) := by
  obtain ⟨k, rfl, hslots⟩ := h.exists_stk
  by_cases hreset : s.inReset = true
  · rwa [takeCancel_of_held hreset, takeCancel_of_held (s := { s with stk := k }) hreset]
  · rw [Bool.not_eq_true] at hreset
    by_cases hrun : s.run = .running ∨ s.run = .halted
    · rw [takeCancel_of_cancellable hreset hrun, takeCancel_of_cancellable (s := { s with stk := k }) hreset hrun]
      exact ⟨rfl, hslots⟩
    · obtain ⟨hrunning, hhalted⟩ := not_or.1 hrun
      rwa [takeCancel_of_final hrunning hhalted, takeCancel_of_final (s := { s with stk := k }) hrunning hhalted]

/-- The form `Steps.stays`, as an equation: without a move, a core that is held or stopped only consumes it. -/
theorem step_stays {s : State} (hmove : s.nextMove = .idle) (hr : s.inReset = true ∨ s.run ≠ .running) :
    step s = .next s.consumeMove :=
  hr.elim (fun hreset => step_of_held hreset (by simp [hmove])) (step_idle_of_stopped hmove)

theorem step_ignoresStale : IgnoresStale step := by
  intro s t hst
  obtain ⟨k, rfl, hslots⟩ := hst.exists_stk
  have hst' : SameButStale s.consumeMove { s with stk := k }.consumeMove := ⟨rfl, hslots⟩
  obtain ⟨s', hs, hform⟩ := step_steps s
  cases hform with
  | resets image hmove => exact ⟨_, _, hs, step_releaseReset hmove, rfl, fun _ _ => rfl⟩
  | holds hmove => exact ⟨_, _, hs, step_holdReset hmove, rfl, hslots⟩
  | cancels hmove => exact ⟨_, _, hs, step_cancel hmove, hst'.takeCancel⟩
  | stays hmove hr => exact ⟨_, _, hs, step_stays hmove hr, hst'⟩
  | runsOut hexe hpc => exact ⟨_, _, hs, step_executes_past_end hexe hpc, rfl, hslots⟩
  | executes _ hexe hpc =>
    rw [step_executes_inside hexe hpc, step_executes_inside (s := { s with stk := k }) hexe hpc]
    exact exec_ignoresStale (instrAt s) _ _ hst'

/-- Settles O58: the step from either state is one of two that stand in the relation. -/
theorem staleStackIsInvisible : Obligations.StaleStackIsInvisible := by
  intro s t s' t' hst hs ht
  obtain ⟨u, v, hu, hv, huv⟩ := step_ignoresStale s t hst
  rw [hs] at hu
  rw [ht] at hv
  cases hu
  cases hv
  exact huv

end Sys2Proof.Machine
end

/-! ## Proofs about who writes what: registers, RAM, stack slots and `sp` (10_state.md) -/
section
namespace Sys2Proof.Machine

section writers
variable {i : Instr} {s t : State}

/-- Writing the register that `rd` names leaves a register alone, unless `rd` names it. -/
theorem reg_setReg_cases {rd : Word} {r : Reg} (hr : rd.toInt = r.index) (s : State) (v : Word) (q : Reg) :
    (s.setReg r v).reg q = s.reg q ∨ rd.toInt = q.index := by
  by_cases hq : q = r
  · exact .inr (hq ▸ hr)
  · exact .inl (reg_setReg_other s v hq)

/-- A register keeps its value, or is the destination the instruction names (R15). -/
theorem Completes.reg_cases (h : Completes i s t) (q : Reg) :
    t.reg q = s.reg q ∨ ∃ rd, destOf i = some rd ∧ rd.toInt = q.index := by
  cases h with
  | writesReg rd r y hd hr => exact (reg_setReg_cases hr s y q).imp_right fun hq => ⟨rd, hd, hq⟩
  | pops rd r hi hr => exact (reg_setReg_cases hr s _ q).imp_right fun hq => ⟨rd, hi ▸ rfl, hq⟩
  | _ => exact .inl rfl

theorem Completes.ramKept (h : Completes i s t) (hno : ∀ addr val flag, i ≠ .sto addr val flag) : RamKept s t := by
  cases h with
  | stores addr val flag hi => exact absurd hi (hno addr val flag)
  | _ => exact fun _ => rfl

theorem Completes.slotsKept (h : Completes i s t) (hno : ∀ val flag, i ≠ .push val flag) : SlotsKept s t := by
  cases h with
  | pushes val flag hi => exact absurd hi (hno val flag)
  | _ => exact fun _ => rfl

theorem Completes.sp_cases (h : Completes i s t) :
    t.sp = s.sp ∨ (∃ val flag, i = .push val flag ∧ t.sp = s.sp + 1) ∨ ∃ rd, i = .pop rd ∧ t.sp + 1 = s.sp := by
  cases h with
  | pushes val flag hi => exact .inr (.inl ⟨val, flag, hi, rfl⟩)
  | pops rd r hi _ hsp => exact .inr (.inr ⟨rd, hi, Nat.sub_add_cancel hsp⟩)
  | _ => exact .inl rfl

end writers

/-- Settles O56: a fault entry writes none of the four, and of the completed forms each is written by those of the
instructions named. -/
theorem onlyNamedWriters : Obligations.OnlyNamedWriters := by
  intro i s t hexec
  rcases answers_of_exec hexec with ⟨c, -, rfl⟩ | hdone
  · exact ⟨fun q hne => absurd (reg_takeFault c s q) hne, fun _ => ramWord_takeFault c s,
      fun _ => stackWord_takeFault c s, fun hne => absurd (takeFault_sp c s) hne⟩
  · exact ⟨fun q => (hdone.reg_cases q).resolve_left, hdone.ramKept, hdone.slotsKept, hdone.sp_cases.resolve_left⟩

end Sys2Proof.Machine
end

/-! ## Proofs about bounded running time (45_dispatch.md, 70_reset_and_hazards.md) -/
section
namespace Sys2Proof.Machine

/-- Under a host that never resets, a step writes no parameter but the list of moves, which is one shorter. -/
theorem Steps.paramsKept_of_neverResets {s t : State} (h : Steps s t) (hhost : HostNeverResets s) :
    ParamsKept s.consumeMove t := by
  have hmove := hhost.nextMove
  cases h with
  | resets _ hm | holds hm => simp [hm] at hmove
  | cancels => exact takeCancel_paramsKept _
  | stays => exact .refl _
  | runsOut => exact takeFault_paramsKept _ _
  | executes _ _ _ hans => exact hans.paramsKept

/-- `cancel` leaves no core running. -/
theorem takeCancel_run_ne_running {s : State} (hreset : s.inReset = false) : (takeCancel s).run ≠ .running := by
  by_cases hrun : s.run = .running
  · simp [takeCancel_of_cancellable hreset (.inl hrun)]
  · rcases takeCancel_cases s with h | h <;> simp [h, hrun]

/-- A core that still runs after a step without a reset has executed an instruction inside the image (R96, R101). -/
theorem Steps.advanced_of_running {s t : State} (h : Steps s t) (hhost : HostNeverResets s) (hreset : s.inReset = false)
    (hrun : t.run = .running) : s.run = .running ∧ s.pc + 4 ≤ s.rom.length ∧ t.pc = s.pc + 4 := by
  have hmove := hhost.nextMove
  cases h with
  | resets _ hm | holds hm => simp [hm] at hmove
  | cancels => exact absurd hrun (takeCancel_run_ne_running hreset)
  | stays _ hr => simp [hreset, show s.run = .running from hrun] at hr
  | runsOut => simp at hrun
  | executes _ hexe hpc hans =>
    rcases hans with ⟨c, -, rfl⟩ | hdone
    · simp at hrun
    · exact ⟨hexe.run_eq, hpc, hdone.pc_eq⟩

/-- `n` steps suffice where fewer than `n` instructions are left: each step that leaves the core running takes one. -/
theorem core_run_leaves_running {n : Nat} {s : State} (hhost : HostNeverResets s) (hreset : s.inReset = false)
    (hleft : s.run = .running → 0 < n ∧ s.rom.length < s.pc + 4 * n) :
    ∃ t, core.run n s = .next t ∧ t.run ≠ .running := by
  induction n generalizing s with
  | zero => exact ⟨s, rfl, fun hrun => absurd (hleft hrun).1 (Nat.lt_irrefl 0)⟩
  | succ n ih =>
    obtain ⟨u, hu, hsteps⟩ := step_steps s
    obtain ⟨hrom, -, -, hreset', hhost', -⟩ := hsteps.paramsKept_of_neverResets hhost
    rw [core_run_succ hu]
    refine ih (fun m hm => hhost.consumeMove m (hhost' ▸ hm)) (hreset'.trans hreset) fun hrun => ?_
    obtain ⟨hbefore, hinside, hpc⟩ := hsteps.advanced_of_running hhost hreset hrun
    obtain ⟨-, hshort⟩ := hleft hbefore
    rw [hpc, hrom, State.consumeMove_rom]
    omega

/-- Settles O59: one step more than there are whole instructions left. -/
theorem runsStopInBoundedTime : Obligations.RunsStopInBoundedTime := fun _ hhost hreset =>
  core_run_leaves_running hhost hreset fun _ => by omega

end Sys2Proof.Machine
end
